-- ==== Sys2Proof/Word.lean ====
section
/-! DEFINITION. The byte, the one unit of every buffer and stream of the block (spec 00_scope section 5.1). -/

namespace Sys2Proof

/-- A byte: 8 bits, bit 7 the most significant (R32). -/
abbrev Byte := BitVec 8

end Sys2Proof
end

