-- ==== Sys2Proof/Syntax.lean ====
section
/-! DEFINITION. The syntax of the block: frame types, error kinds, the host's requests, the encoded forms an
instruction is read from, and `Instr`, one constructor per row of spec/opcode_table.json. -/

namespace Sys2Proof

/-- The closed enumeration of frame types (R70). -/
inductive FrameType where
  | continuation
  | close
  | ping
  | pong
  | text
  | binary
deriving DecidableEq, Repr

/-- The types a pending message can have: R11, `t` in (Text, Binary). -/
inductive DataType where
  | text
  | binary
deriving DecidableEq, Repr

/-- The eleven error kinds of R170. -/
inductive ErrKind where
  | unknownFrameType
  | unknownOpcode
  | reservedBitUsed
  | fragmentedControlFrame
  | controlFramePayloadTooLong
  | dataFrameInsteadContinuation
  | unexpectedContinuationFrame
  | invalidPayloadEncoding
  | tooLong
  | lengthRangeUnsupported
  | accOverflow
deriving DecidableEq, Repr

/-- A masking key: a sequence of exactly four bytes in wire order, not a number (R34). -/
structure Key where
  k0 : Byte
  k1 : Byte
  k2 : Byte
  k3 : Byte
deriving DecidableEq, Repr

/-- A request at one of the block's own ports (R67): the ENC port with its 4-bit `type` input (R78), and the
RX.PUSH, DEC and RESET ports. -/
inductive HostOp where
  | enc (type : BitVec 4) (payload : List Byte) (maskEn : Bool) (key : Key)
  | rxPush (bytes : List Byte)
  | dec
  | reset
deriving DecidableEq, Repr

/-- One payload of a FRAG pseudo-frame; each expanded frame may carry its own mask (R66). -/
structure FragPart where
  payload : List Byte
  mask    : Option Key
deriving DecidableEq, Repr

/-- A request of the test bench, not a port of the block (log 11, log 12): a length byte presented to the length
decoder, or the pseudo-frame FRAG. -/
inductive BenchOp where
  | lenByte (b1 : Byte)
  | frag (t : DataType) (parts : List FragPart)
deriving DecidableEq, Repr

/-- A request the host or the test bench has issued and the block has not executed yet. -/
inductive Request where
  | host (op : HostOp)
  | bench (op : BenchOp)
deriving DecidableEq, Repr

/-- What an instruction is read from: the first two bytes of a frame (R51, R52), a length byte (R52), the
operation a port selects (R67), or the pseudo-frame FRAG (R66). -/
inductive Code where
  | frame (b0 b1 : Byte)
  | len (b1 : Byte)
  | port (op : HostOp)
  | frag (t : DataType) (parts : List FragPart)
deriving DecidableEq, Repr

/-- The instructions: one constructor per row of spec/opcode_table.json. In the frame rows `f` is the raw more/fin
bit (byte 0 bit 7), `m` the mask flag and `l` the seven LEN7 bits of byte 1; the extended length, the key and the
payload are read from `rx` when the frame executes. In the ILLEGAL rows `x` holds the bits of byte 0 the row
leaves free, so that no two constructors share a byte 0 (log 10). -/
inductive Instr where
  /-- FRAME.CONT, opcode 0 (R111). -/
  | frameCont (f m : Bool) (l : BitVec 7)
  /-- FRAME.CLOSE, opcode 1 (R114). -/
  | frameClose (f m : Bool) (l : BitVec 7)
  /-- FRAME.PING, opcode 2 (R115). -/
  | framePing (f m : Bool) (l : BitVec 7)
  /-- FRAME.PONG, opcode 3 (R116). -/
  | framePong (f m : Bool) (l : BitVec 7)
  /-- FRAME.TEXT, opcode 4 (R112). -/
  | frameText (f m : Bool) (l : BitVec 7)
  /-- FRAME.BINARY, opcode 5 (R113). -/
  | frameBinary (f m : Bool) (l : BitVec 7)
  /-- ILLEGAL.RSV1, byte 0 bit 6 set (R131); `x` is bits 5 to 0. -/
  | illegalRsv1 (f : Bool) (x : BitVec 6) (m : Bool) (l : BitVec 7)
  /-- ILLEGAL.RSV2, bit 5 set and bit 6 clear; `x` is bits 4 to 0. -/
  | illegalRsv2 (f : Bool) (x : BitVec 5) (m : Bool) (l : BitVec 7)
  /-- ILLEGAL.RSV3, bit 4 set and bits 6, 5 clear; `x` is bits 3 to 0. -/
  | illegalRsv3 (f : Bool) (x : BitVec 4) (m : Bool) (l : BitVec 7)
  /-- ILLEGAL.OPC6_7 (R132); `x` is bit 0 of the opcode. -/
  | illegalOpc6to7 (f : Bool) (x : BitVec 1) (m : Bool) (l : BitVec 7)
  /-- ILLEGAL.OPC8_15 (R132); `x` is the low three bits of the opcode. -/
  | illegalOpc8to15 (f : Bool) (x : BitVec 3) (m : Bool) (l : BitVec 7)
  /-- LEN7, the short length form (R89). -/
  | len7 (m : Bool) (l : BitVec 7)
  /-- LEN16, the 16-bit form (R90). -/
  | len16 (m : Bool)
  /-- LEN64, the 8-byte form (R91, R92). -/
  | len64 (m : Bool)
  /-- ENC.CLOSE, type 1 (R153). -/
  | encClose (payload : List Byte) (maskEn : Bool) (key : Key)
  /-- ENC.PING, type 2 (R154). -/
  | encPing (payload : List Byte) (maskEn : Bool) (key : Key)
  /-- ENC.PONG, type 3 (R155). -/
  | encPong (payload : List Byte) (maskEn : Bool) (key : Key)
  /-- ENC.TEXT, type 4 (R151). -/
  | encText (payload : List Byte) (maskEn : Bool) (key : Key)
  /-- ENC.BINARY, type 5 (R152). -/
  | encBinary (payload : List Byte) (maskEn : Bool) (key : Key)
  /-- ENC.ILLEGAL0, type 0 (R156). -/
  | encIllegal0 (payload : List Byte) (maskEn : Bool) (key : Key)
  /-- ENC.ILLEGAL6_7, types 6 and 7 (R156); `x` is bit 0 of the type. -/
  | encIllegal6to7 (x : BitVec 1) (payload : List Byte) (maskEn : Bool) (key : Key)
  /-- ENC.ILLEGAL8_15, types 8 to 15 (R156); `x` is the low three bits of the type. -/
  | encIllegal8to15 (x : BitVec 3) (payload : List Byte) (maskEn : Bool) (key : Key)
  /-- RX.PUSH (R142). -/
  | rxPush (bytes : List Byte)
  /-- DEC (R140). -/
  | dec
  /-- RESET (R190). -/
  | reset
  /-- FRAG, the pseudo-frame of the test bench (R66). -/
  | frag (t : DataType) (parts : List FragPart)
deriving DecidableEq, Repr

end Sys2Proof
end

