-- ==== Sys2Proof/WellFormed.lean ====
section
/-! DEFINITION. Which instructions are well formed: the ranges the spec gives their operands. -/

namespace Sys2Proof

/-- The payload lengths `Serialize` and ENC are defined on: below `2^32` (R64, R88, 45_encoder section 1). -/
def encodableLength (payload : List Byte) : Bool := decide (payload.length < 4294967296)

/-- LEN7 values that select the short form: 0 to 125 (R52). -/
def shortLen7 (l : BitVec 7) : Bool := decide (l.toNat ≤ 125)

/-- FRAG has at least two payloads (`n >= 1`, R66), each one `Serialize` is defined on (R64). -/
def fragParts (parts : List FragPart) : Bool :=
  decide (2 ≤ parts.length) && parts.all (fun p => encodableLength p.payload)

/-- The operand ranges of each row. A frame's two header bytes have no illegal operand (R62). -/
def Instr.wellFormed : Instr → Bool
  | .frameCont _ _ _ => true
  | .frameClose _ _ _ => true
  | .framePing _ _ _ => true
  | .framePong _ _ _ => true
  | .frameText _ _ _ => true
  | .frameBinary _ _ _ => true
  | .illegalRsv1 _ _ _ _ => true
  | .illegalRsv2 _ _ _ _ => true
  | .illegalRsv3 _ _ _ _ => true
  | .illegalOpc6to7 _ _ _ _ => true
  | .illegalOpc8to15 _ _ _ _ => true
  | .len7 _ l => shortLen7 l
  | .len16 _ => true
  | .len64 _ => true
  | .encClose p _ _ => encodableLength p
  | .encPing p _ _ => encodableLength p
  | .encPong p _ _ => encodableLength p
  | .encText p _ _ => encodableLength p
  | .encBinary p _ _ => encodableLength p
  | .encIllegal0 p _ _ => encodableLength p
  | .encIllegal6to7 _ p _ _ => encodableLength p
  | .encIllegal8to15 _ p _ _ => encodableLength p
  | .rxPush _ => true
  | .dec => true
  | .reset => true
  | .frag _ parts => fragParts parts

end Sys2Proof
end

