-- ==== Sys2Proof/Decode.lean ====
section
/-! DEFINITION. The decoder, total on every frame header, length byte and port request, and the encoder, both written
from the encodings of 30_encoding and 40_header_codec; and the numbering of spec/opcode_table.json's words. -/

namespace Sys2Proof

/-! ## Bit fields of a byte -/

/-- Bit 7 of a byte: the raw more/fin bit of byte 0 (R51), the mask flag of byte 1 (R52). -/
def highBit (b : Byte) : Bool := b.getLsbD 7

/-- Bits 6 to 0 of a byte: LEN7 of byte 1 (R52). -/
def low7 (b : Byte) : BitVec 7 := b.extractLsb' 0 7

/-- Bits 6 to 4 of byte 0, the reserved bits, bit 6 most significant (R51, R76: `RsvOf`). -/
def rsvOf (b0 : Byte) : BitVec 3 := b0.extractLsb' 4 3

/-- Bits 3 to 0 of byte 0, the opcode (R51). -/
def opcOf (b0 : Byte) : BitVec 4 := b0.extractLsb' 0 4

/-! ## Type and opcode mapping -/

/-- `opcode_to_type` (R72): six opcodes give a type, 6 to 15 raise UnknownOpcode. -/
def opcodeToType (o : BitVec 4) : Except ErrKind FrameType :=
  match o.toNat with
  | 0 => .ok .continuation
  | 1 => .ok .close
  | 2 => .ok .ping
  | 3 => .ok .pong
  | 4 => .ok .text
  | 5 => .ok .binary
  | _ => .error .unknownOpcode

/-- `type_to_opcode` (R71): the five encodable types; 0 (Continuation) and 6 to 15 raise UnknownFrameType. -/
def typeToOpcode (t : BitVec 4) : Except ErrKind (BitVec 4) :=
  if 1 ≤ t.toNat ∧ t.toNat ≤ 5 then .ok t else .error .unknownFrameType

/-- The opcode of a frame type (R70), also its code on every port (R78). -/
def FrameType.opcode : FrameType → BitVec 4
  | .continuation => 0#4
  | .close => 1#4
  | .ping => 2#4
  | .pong => 3#4
  | .text => 4#4
  | .binary => 5#4

/-! ## Decoding -/

/-- The row of the opcode table byte 0 selects. -/
inductive FrameRow where
  | frame (t : FrameType)
  | rsv1
  | rsv2
  | rsv3
  | opc6to7
  | opc8to15
deriving DecidableEq, Repr

/-- The row byte 0 selects. A reserved bit wins over every opcode row (R131); of several reserved bits the first one
set names the row (log 10). -/
def frameRow (b0 : Byte) : FrameRow :=
  if b0.getLsbD 6 then .rsv1
  else if b0.getLsbD 5 then .rsv2
  else if b0.getLsbD 4 then .rsv3
  else match opcodeToType (opcOf b0) with
    | .ok t => .frame t
    | .error _ => if b0.getLsbD 3 then .opc8to15 else .opc6to7

/-- The instruction the first two bytes of a frame give (R51, R52, R59 to R62). -/
def decodeFrame (b0 b1 : Byte) : Instr :=
  match frameRow b0 with
  | .frame .continuation => .frameCont (highBit b0) (highBit b1) (low7 b1)
  | .frame .close => .frameClose (highBit b0) (highBit b1) (low7 b1)
  | .frame .ping => .framePing (highBit b0) (highBit b1) (low7 b1)
  | .frame .pong => .framePong (highBit b0) (highBit b1) (low7 b1)
  | .frame .text => .frameText (highBit b0) (highBit b1) (low7 b1)
  | .frame .binary => .frameBinary (highBit b0) (highBit b1) (low7 b1)
  | .rsv1 => .illegalRsv1 (highBit b0) (b0.extractLsb' 0 6) (highBit b1) (low7 b1)
  | .rsv2 => .illegalRsv2 (highBit b0) (b0.extractLsb' 0 5) (highBit b1) (low7 b1)
  | .rsv3 => .illegalRsv3 (highBit b0) (b0.extractLsb' 0 4) (highBit b1) (low7 b1)
  | .opc6to7 => .illegalOpc6to7 (highBit b0) (b0.extractLsb' 0 1) (highBit b1) (low7 b1)
  | .opc8to15 => .illegalOpc8to15 (highBit b0) (b0.extractLsb' 0 3) (highBit b1) (low7 b1)

/-- The length form byte 1 selects (R52): 127 the 8-byte form, 126 the 16-bit form, else the short form. -/
def decodeLen (b1 : Byte) : Instr :=
  if (low7 b1).toNat = 127 then .len64 (highBit b1)
  else if (low7 b1).toNat = 126 then .len16 (highBit b1)
  else .len7 (highBit b1) (low7 b1)

/-- The encode operation the 4-bit `type` input selects (R67, R156). -/
def decodeEnc (type : BitVec 4) (payload : List Byte) (maskEn : Bool) (key : Key) : Instr :=
  match type.toNat with
  | 0 => .encIllegal0 payload maskEn key
  | 1 => .encClose payload maskEn key
  | 2 => .encPing payload maskEn key
  | 3 => .encPong payload maskEn key
  | 4 => .encText payload maskEn key
  | 5 => .encBinary payload maskEn key
  | 6 => .encIllegal6to7 0#1 payload maskEn key
  | 7 => .encIllegal6to7 1#1 payload maskEn key
  | _ => .encIllegal8to15 (type.extractLsb' 0 3) payload maskEn key

/-- The operation a port request selects (R67). -/
def decodeOp : HostOp → Instr
  | .enc type payload maskEn key => decodeEnc type payload maskEn key
  | .rxPush bytes => .rxPush bytes
  | .dec => .dec
  | .reset => .reset

/-- The decoder: total, every code is some row of the opcode table (R62). -/
def decode : Code → Instr
  | .frame b0 b1 => decodeFrame b0 b1
  | .len b1 => decodeLen b1
  | .port op => decodeOp op
  | .frag t parts => .frag t parts

/-- Why no frame header can be read from a byte sequence. -/
inductive DecodeReject where
  /-- Fewer than two bytes are buffered (R130). -/
  | needTwoBytes
deriving DecidableEq, Repr

/-- The instruction at the front of any byte sequence, and the bytes after its two header bytes. -/
def decodeBytes : List Byte → Except DecodeReject (Instr × List Byte)
  | b0 :: b1 :: rest => .ok (decodeFrame b0 b1, rest)
  | _ => .error .needTwoBytes

/-! ## Encoding -/

/-- Byte 1: the mask flag over LEN7 (R52). -/
def byte1Of (m : Bool) (l : BitVec 7) : Byte := BitVec.ofBool m ++ l

/-- Byte 0 of a frame: raw more/fin bit, reserved bits 000, opcode (R51). -/
def byte0Of (f : Bool) (opc : BitVec 4) : Byte := BitVec.ofBool f ++ (0#3 ++ opc)

/-- The code a well-formed instruction is read from: its encoding of 30_encoding. -/
def encode : Instr → Code
  | .frameCont f m l => .frame (byte0Of f 0#4) (byte1Of m l)
  | .frameClose f m l => .frame (byte0Of f 1#4) (byte1Of m l)
  | .framePing f m l => .frame (byte0Of f 2#4) (byte1Of m l)
  | .framePong f m l => .frame (byte0Of f 3#4) (byte1Of m l)
  | .frameText f m l => .frame (byte0Of f 4#4) (byte1Of m l)
  | .frameBinary f m l => .frame (byte0Of f 5#4) (byte1Of m l)
  | .illegalRsv1 f x m l => .frame (BitVec.ofBool f ++ (1#1 ++ x)) (byte1Of m l)
  | .illegalRsv2 f x m l => .frame (BitVec.ofBool f ++ (1#2 ++ x)) (byte1Of m l)
  | .illegalRsv3 f x m l => .frame (BitVec.ofBool f ++ (1#3 ++ x)) (byte1Of m l)
  | .illegalOpc6to7 f x m l => .frame (BitVec.ofBool f ++ (3#6 ++ x)) (byte1Of m l)
  | .illegalOpc8to15 f x m l => .frame (BitVec.ofBool f ++ (1#4 ++ x)) (byte1Of m l)
  | .len7 m l => .len (byte1Of m l)
  | .len16 m => .len (byte1Of m 126#7)
  | .len64 m => .len (byte1Of m 127#7)
  | .encClose p e k => .port (.enc 1#4 p e k)
  | .encPing p e k => .port (.enc 2#4 p e k)
  | .encPong p e k => .port (.enc 3#4 p e k)
  | .encText p e k => .port (.enc 4#4 p e k)
  | .encBinary p e k => .port (.enc 5#4 p e k)
  | .encIllegal0 p e k => .port (.enc 0#4 p e k)
  | .encIllegal6to7 x p e k => .port (.enc (3#3 ++ x) p e k)
  | .encIllegal8to15 x p e k => .port (.enc (1#1 ++ x) p e k)
  | .rxPush bytes => .port (.rxPush bytes)
  | .dec => .port .dec
  | .reset => .port .reset
  | .frag t parts => .frag t parts

/-! ## The numbering of spec/opcode_table.json (log 14) -/

/-- The code whose table bits are `w`. A frame row has 16 bits, byte 0 high and byte 1 low. A row of one byte is an
ENC `type` when the value fits its four bits, else a length byte. A row without bits has no code. -/
def tableCode (nbits w : Nat) : Option Code :=
  if nbits = 0 ∨ 16 < nbits ∨ 2 ^ nbits ≤ w then none
  else if 8 < nbits then some (.frame (BitVec.ofNat 8 (w / 256)) (BitVec.ofNat 8 w))
  else if w < 16 then some (.port (.enc (BitVec.ofNat 4 w) [] false ⟨0#8, 0#8, 0#8, 0#8⟩))
  else some (.len (BitVec.ofNat 8 w))

/-- How many bytes a frame has after its two header bytes when every one of them is zero: an extended length of
zeros spells 0; the key is there when the mask flag is set (R53, R54, R57). -/
def zeroTail (b1 : Byte) : Nat :=
  (if (low7 b1).toNat = 127 then 8 else if (low7 b1).toNat = 126 then 2 else (low7 b1).toNat)
    + (if highBit b1 then 4 else 0)

/-- How many bytes the length form of `b1` has after the length byte (R53). -/
def zeroExt (b1 : Byte) : Nat :=
  if (low7 b1).toNat = 127 then 8 else if (low7 b1).toNat = 126 then 2 else 0

/-- The instruction the decoder reads from a table word. -/
def decodeTableWord (nbits w : Nat) : Option Instr := (tableCode nbits w).map decode

end Sys2Proof
end

