-- ==== Sys2Proof/Config.lean ====
section
/-! DEFINITION. The configuration inputs of the block (R4, R5, R7, R8, R9, R17), as plain data. They are no state of the
block: no operation writes them. `State` carries them so that a statement about every state is one about every
configuration (log 2). -/

namespace Sys2Proof

/-- What the decoder does with an 8-byte length whose high four bytes are not all zero (R7). -/
inductive HighLenPolicy where
  | truncate
  | reject
deriving DecidableEq, Repr

/-! ## `utf8_valid` (R9, R117) -/

/-- One row of a table of byte patterns: the range of the first byte and the ranges of the bytes after it. -/
structure Utf8Row where
  lo   : Nat
  hi   : Nat
  tail : List (Nat × Nat)
deriving DecidableEq, Repr

/-- What the host supplies for `utf8_valid`, a function from bytes to Bool (R9), written as data (log 5). -/
inductive Utf8Predicate where
  /-- The predicate of a table: the concatenations of zero or more of its patterns, as R117 defines its own. -/
  | patterns (rows : List Utf8Row)
  /-- Any other predicate, by a number: it is `Config.utf8Other` of that number. -/
  | other (n : Nat)
deriving DecidableEq, Repr

/-- The predicates that are given by no table. No body: a statement holds for every function the host may supply. -/
opaque Config.utf8Other : Nat → List Byte → Bool

/-- The nine rows of R117, the value `utf8_valid` has in this spec (R9). -/
def utf8Table : List Utf8Row :=
  [ ⟨0x00, 0x7F, []⟩,
    ⟨0xC2, 0xDF, [(0x80, 0xBF)]⟩,
    ⟨0xE0, 0xE0, [(0xA0, 0xBF), (0x80, 0xBF)]⟩,
    ⟨0xE1, 0xEC, [(0x80, 0xBF), (0x80, 0xBF)]⟩,
    ⟨0xED, 0xED, [(0x80, 0x9F), (0x80, 0xBF)]⟩,
    ⟨0xEE, 0xEF, [(0x80, 0xBF), (0x80, 0xBF)]⟩,
    ⟨0xF0, 0xF0, [(0x90, 0xBF), (0x80, 0xBF), (0x80, 0xBF)]⟩,
    ⟨0xF1, 0xF3, [(0x80, 0xBF), (0x80, 0xBF), (0x80, 0xBF)]⟩,
    ⟨0xF4, 0xF4, [(0x80, 0x8F), (0x80, 0xBF), (0x80, 0xBF)]⟩ ]

/-! ## All of them -/

/-- The configuration inputs. A capacity of `none` is `unbounded` (R8). -/
structure Config where
  /-- MAXFS, the maximum total frame size in bytes (R5). -/
  maxFs     : Nat
  /-- HIGHLEN_POLICY (R7). -/
  highLen   : HighLenPolicy
  /-- RXBUF_CAP (R8). -/
  rxCap     : Option Nat
  /-- ACC_CAP (R8). -/
  accCap    : Option Nat
  /-- FIN_POLICY (R4); its only value in scope is `false` (log 4). -/
  finPolicy : Bool
  /-- `utf8_valid` (R9, R117). -/
  utf8      : Utf8Predicate
deriving DecidableEq, Repr

/-- The configuration `State.reset` carries: the spec's defaults (R4, R7, R8, R9). MAXFS has no default in the spec;
DESIGN CHOICE (log 3): 64, the value the conventions of 95_test_vectors use. -/
def Config.default : Config :=
  { maxFs := 64, highLen := .truncate, rxCap := none, accCap := none, finPolicy := false,
    utf8 := .patterns utf8Table }

end Sys2Proof
end

