-- ==== Sys2Proof/Machine/State.lean ====
section
/-! DEFINITION. The state of the block and of its boundary, the results an operation returns, and why the model
stops. -/

namespace Sys2Proof.Machine

/-! ## Results (00_scope section 5.3) -/

/-- The result of a DEC: "a tri-state result per call" (R141). The `type` of a message is a 4-bit code, the opcode of
the frame type (R78). -/
inductive DecResult where
  | message (type : BitVec 4) (payload : List Byte) (validated : Bool)
  | incomplete
  | protocolError (kind : ErrKind)
deriving DecidableEq, Repr

/-- The result of an ENC (R150). -/
inductive EncResult where
  | frame (bytes : List Byte)
  | error (kind : ErrKind)
deriving DecidableEq, Repr

/-- The result of `DecodeLength` (41_length_codec section 3): `Len(h, masked, L)`, `NeedMore` or `Bad(kind)`. -/
inductive LenResult where
  | needMore
  | bad (kind : ErrKind)
  | len (h : Nat) (masked : Bool) (payloadLen : Nat)
deriving DecidableEq, Repr

/-- What one executed request answers. RESET returns nothing (R190) and adds no response. -/
inductive Response where
  /-- The result of a DEC. -/
  | dec (r : DecResult)
  /-- The result of an ENC. -/
  | enc (r : EncResult)
  /-- The push was accepted (R142). -/
  | pushAccepted
  /-- The push did not fit RXBUF_CAP and was refused as a whole (R142); the machine goes on. -/
  | pushRefused
  /-- The result of a length form exercised on its own (log 11). -/
  | length (r : LenResult)
deriving DecidableEq, Repr

/-! ## Why the model stops -/

/-- The model's faults. A protocol error is NOT one of them: it is a next state with the latch set (R184). -/
inductive Fault where
  /-- A Continuation frame met `pend` set and `acc` absent, a state outside invariant R13 that no run from
  `State.reset` reaches (log 8). Raised by FRAME.CONT, and by DEC or a frame whose DEC loop runs one. Safe: there is no
  buffer value to append to, and the spec gives such a state no meaning. -/
  | fragIncoherent
deriving DecidableEq, Repr

/-- The requests the model gives no meaning to. -/
inductive Refusal where
  /-- An instruction not modelled yet, by mnemonic. Raised by no arm of `exec`. Safe. -/
  | notModelled (mnemonic : String)
  /-- An ENC whose payload has `2^32` bytes or more: "the operation has no step and emits nothing" (R88). Raised by
  every ENC row on such a payload. Safe. -/
  | encPayloadNotEncodable
  /-- A FRAG with fewer than two payloads (R66) or a payload outside the domain of `Serialize` (R64). Raised by FRAG.
  Safe. -/
  | fragIllFormed
deriving DecidableEq, Repr

/-! ## State -/

/-- The four registers of the block (R10 to R14), its configuration inputs (R17) and the streams at its boundary
(R30, R42, R202). -/
structure State where
  /-- The configuration inputs; no operation writes them (R17, log 2). -/
  cfg   : Config
  /-- The receive buffer, oldest byte first; its front is the frame cursor (R10, R15, R31). -/
  rx    : List Byte
  /-- The type of the fragmented message in progress (R11). -/
  pend  : Option DataType
  /-- The bytes of that message so far; `some []` is not `none` (R12). -/
  acc   : Option (List Byte)
  /-- The fault latch: the first protocol error since reset (R14). -/
  fault : Option ErrKind
  /-- The requests issued and not yet executed, in issue order (R42); the model's own field (log 6). -/
  ops   : List Request
  /-- The transmit stream: every byte emitted so far (R30, R43); the model's own field (log 7). -/
  tx    : List Byte
  /-- The results returned so far, oldest first (R202); the model's own field (log 7). -/
  out   : List Response
deriving DecidableEq, Repr

/-- The block after reset and at power-up (R20), with the default configuration (log 3), no request pending and
nothing emitted or returned yet. -/
def State.reset : State :=
  { cfg := Config.default, rx := [], pend := none, acc := none, fault := none, ops := [], tx := [], out := [] }

/-- The read-only status view (R18). -/
structure Status where
  faultCode  : Nat
  fragActive : Bool
  pendType   : BitVec 4
  rxCount    : Nat
  accCount   : Nat
deriving DecidableEq, Repr

end Sys2Proof.Machine
end

