-- ==== Sys2Proof/Machine/Flags.lean ====
section
/-! DEFINITION. The flags of a frame and the frame classes (R16, R73 to R77), the codes of types and error kinds on
the ports (R78, R170), and the status view (R18). -/

namespace Sys2Proof.Machine

/-- `IsControl` (R73): Close, Ping and Pong. -/
def isControl : FrameType → Bool
  | .close => true
  | .ping => true
  | .pong => true
  | .continuation => false
  | .text => false
  | .binary => false

/-- `IsData` (R73): Text and Binary. -/
def isData : FrameType → Bool
  | .text => true
  | .binary => true
  | .continuation => false
  | .close => false
  | .ping => false
  | .pong => false

/-- The frame type of a pending type. -/
def dataFrameType : DataType → FrameType
  | .text => .text
  | .binary => .binary

/-- `more` from the raw more/fin bit: raw bit XOR FIN_POLICY (R51, R74). -/
def moreFlag (finPolicy rawBit : Bool) : Bool := rawBit ^^ finPolicy

/-- `MoreOf` (R74). -/
def moreOf (finPolicy : Bool) (b0 : Byte) : Bool := moreFlag finPolicy (highBit b0)

/-- The raw more/fin bit the encoder writes: `more XOR FIN_POLICY` (R64, R75). -/
def rawMoreBit (finPolicy more : Bool) : Bool := more ^^ finPolicy

/-- `MaskedOf` (R77). -/
def maskedOf (b1 : Byte) : Bool := highBit b1

/-- `Len7Of` (R77). -/
def len7Of (b1 : Byte) : BitVec 7 := low7 b1

/-- The mask value `Mv`: 0x80 when masking is requested, else 0 (R77, R150). -/
def maskValue (masked : Bool) : Byte := if masked then 0x80#8 else 0x00#8

/-- The number of key bytes of a frame: 4 when masked (R57). -/
def keyBytes (masked : Bool) : Nat := if masked then 4 else 0

/-- The `validated` flag of every returned message (R119). -/
def validatedFlag : Bool := true

/-- The numeric code of an error kind (R170). -/
def errCode : ErrKind → Nat
  | .unknownFrameType => 1
  | .unknownOpcode => 2
  | .reservedBitUsed => 3
  | .fragmentedControlFrame => 4
  | .controlFramePayloadTooLong => 5
  | .dataFrameInsteadContinuation => 6
  | .unexpectedContinuationFrame => 7
  | .invalidPayloadEncoding => 8
  | .tooLong => 9
  | .lengthRangeUnsupported => 10
  | .accOverflow => 11

/-- `frag_active` (R16): a fragmented message is in progress. -/
def fragActive (s : State) : Bool := s.pend.isSome

/-- The status view STATUS, computed from the state with no side effect (R18). -/
def status (s : State) : Status :=
  { faultCode := (s.fault.map errCode).getD 0
    fragActive := fragActive s
    pendType := (s.pend.map (fun t => (dataFrameType t).opcode)).getD 0#4
    rxCount := s.rx.length
    accCount := (s.acc.map List.length).getD 0 }

end Sys2Proof.Machine
end

