-- ==== Sys2Proof/Machine/Ops.lean ====
section
/-! DEFINITION. The named operations over the state: the buffers, the fragmentation state, the fault latch (taking an
exception), and retiring a request with its response. -/

namespace Sys2Proof.Machine

/-- How one frame, one iteration of DEC's loop (R140), ends: DEC returns a result, or the frame was absorbed and
the loop goes on, or the model stops. -/
inductive FrameEnd where
  | done (r : DecResult) (s : State)
  | absorbed (s : State)
  | stop (f : Fault)

/-! ## Buffers -/

/-- Whether a buffer of `n` bytes fits a capacity; `none` is `unbounded` (R8). -/
def fitsCap (cap : Option Nat) (n : Nat) : Bool :=
  match cap with
  | none => true
  | some c => decide (n ≤ c)

/-- `Consume(n)`: removes `n` bytes from the front of `rx` (00_scope section 5.2, R37). -/
def consume (n : Nat) (s : State) : State := { s with rx := s.rx.drop n }

/-- `rx <- rx ++ bytes` (R142). -/
def appendRx (bytes : List Byte) (s : State) : State := { s with rx := s.rx ++ bytes }

/-- Bytes leave on the transmit stream, in operation order (R43). -/
def emitTx (bytes : List Byte) (s : State) : State := { s with tx := s.tx ++ bytes }

/-- Writes the fragmentation state (R11, R12). -/
def setFrag (pend : Option DataType) (acc : Option (List Byte)) (s : State) : State :=
  { s with pend := pend, acc := acc }

/-! ## Retiring a request -/

/-- The oldest request has been executed and returns nothing. -/
def retire (s : State) : State := { s with ops := s.ops.tail }

/-- The oldest request has been executed and returns `r` (R39: atomic, result and effects together). -/
def respond (r : Response) (s : State) : State := { s with ops := s.ops.tail, out := s.out ++ [r] }

/-! ## Taking and leaving an exception -/

/-- Error entry (R184): `fault <- some k`, and DEC ends at once with `ProtocolError(k)`. Nothing is saved, no mode
changes, there is no handler. -/
def raiseError (k : ErrKind) (s : State) : FrameEnd :=
  .done (.protocolError k) { s with fault := some k }

/-- RESET (R190): every piece of state takes its reset value (R20), the only way out of the error state (R186).
Configuration and the host's side of the ports are not touched (R191). -/
def clearState (s : State) : State :=
  { s with rx := [], pend := none, acc := none, fault := none }

/-! ## RX.PUSH -/

/-- RX.PUSH (R142): appends as a whole, or is refused as a whole when it does not fit RXBUF_CAP. -/
def pushBytes (bytes : List Byte) (s : State) : State :=
  if fitsCap s.cfg.rxCap (s.rx.length + bytes.length) then
    respond .pushAccepted (appendRx bytes s)
  else
    respond .pushRefused s

end Sys2Proof.Machine
end

