-- ==== Sys2Proof/Machine/Operands.lean ====
section
/-! DEFINITION. The operand forms of a frame: slices of the receive buffer, big-endian fields (R33), the length field
codec (41_length_codec), the masking engine (42_masking), and the UTF-8 predicate (R9, R117). -/

namespace Sys2Proof.Machine

/-! ## Slices and byte order -/

/-- `MemRead(i, n)`: `s[i .. i+n)` (00_scope section 5.2). Every use is guarded by a length test (R38). -/
def slice (bytes : List Byte) (i n : Nat) : List Byte := (bytes.drop i).take n

/-- Big-endian value of a byte sequence: `be16` on two bytes, `be32` on four (00_scope section 5.1). -/
def beNat (bytes : List Byte) : Nat := bytes.foldl (fun v b => v * 256 + b.toNat) 0

/-- `to_be16` (00_scope section 5.1). -/
def toBe16 (n : Nat) : List Byte := [BitVec.ofNat 8 (n / 256), BitVec.ofNat 8 n]

/-- `to_be32` (00_scope section 5.1). -/
def toBe32 (n : Nat) : List Byte :=
  [BitVec.ofNat 8 (n / 16777216), BitVec.ofNat 8 (n / 65536), BitVec.ofNat 8 (n / 256), BitVec.ofNat 8 n]

/-! ## Length field, encode -/

/-- `EncodeLength(L, Mv)` (R85 to R87); `none` for the lengths that are not encodable (R88). -/
def encodeLength (payloadLen : Nat) (mv : Byte) : Option (List Byte) :=
  if payloadLen ≤ 125 then some [BitVec.ofNat 8 payloadLen ||| mv]
  else if payloadLen < 65536 then some ((126#8 ||| mv) :: toBe16 payloadLen)
  else if payloadLen < 4294967296 then some ((127#8 ||| mv) :: ([0#8, 0#8, 0#8, 0#8] ++ toBe32 payloadLen))
  else none

/-! ## Length field, decode -/

/-- The short form (R89). -/
def lenShort (m : Bool) (l : BitVec 7) : LenResult := .len 2 m l.toNat

/-- The 16-bit form (R90, R93). -/
def lenWide16 (m : Bool) (rx : List Byte) : LenResult :=
  if rx.length < 4 then .needMore else .len 4 m (beNat (slice rx 2 2))

/-- The 8-byte form (R91 under Truncate, R92 under Reject, R93). -/
def lenWide64 (policy : HighLenPolicy) (m : Bool) (rx : List Byte) : LenResult :=
  if rx.length < 10 then .needMore
  else if beNat (slice rx 2 4) ≠ 0 ∧ policy = .reject then .bad .lengthRangeUnsupported
  else .len 10 m (beNat (slice rx 6 4))

/-- `DecodeLength` on a buffer whose byte 1 has mask flag `m` and length code `l`. -/
def decodeLengthAs (policy : HighLenPolicy) (m : Bool) (l : BitVec 7) (rx : List Byte) : LenResult :=
  if l.toNat ≤ 125 then lenShort m l
  else if l.toNat = 126 then lenWide16 m rx
  else lenWide64 policy m rx

/-- `DecodeLength(rx)` (41_length_codec section 3). It requires two buffered bytes; with fewer the answer is parser
step 1's NeedMore (R130). -/
def decodeLength (policy : HighLenPolicy) (rx : List Byte) : LenResult :=
  match rx with
  | _ :: b1 :: _ => decodeLengthAs policy (maskedOf b1) (len7Of b1) rx
  | _ => .needMore

/-! ## Masking engine -/

/-- `key[i mod 4]` (R100). -/
def keyByte (key : Key) (i : Nat) : Byte :=
  match i % 4 with
  | 0 => key.k0
  | 1 => key.k1
  | 2 => key.k2
  | _ => key.k3

/-- The masking of the bytes from payload index `i` on. -/
def maskFrom (key : Key) (i : Nat) : List Byte → List Byte
  | [] => []
  | b :: rest => (b ^^^ keyByte key i) :: maskFrom key (i + 1) rest

/-- `Mask(data, key)` (R100); the index restarts at every frame (R105). -/
def mask (data : List Byte) (key : Key) : List Byte := maskFrom key 0 data

/-- The four key bytes in wire order (R34, R102). -/
def keyList (key : Key) : List Byte := [key.k0, key.k1, key.k2, key.k3]

/-- The key at offset `i` of the buffer: `key[j] = rx[i+j]` (R54). Read only when those bytes are buffered. -/
def keyAt (rx : List Byte) (i : Nat) : Key :=
  ⟨rx.getD i 0#8, rx.getD (i + 1) 0#8, rx.getD (i + 2) 0#8, rx.getD (i + 3) 0#8⟩

/-- The payload delivered to the reassembler (R103): unmasked when the frame's own mask flag is set. -/
def payloadAt (rx : List Byte) (h : Nat) (masked : Bool) (payloadLen : Nat) : List Byte :=
  if masked then mask (slice rx (h + 4) payloadLen) (keyAt rx h) else slice rx h payloadLen

/-! ## UTF-8 -/

/-- Whether a byte lies in a range. -/
def inRange (b : Byte) (lo hi : Nat) : Bool := decide (lo ≤ b.toNat) && decide (b.toNat ≤ hi)

/-- The ranges still owed after byte `b`, where `want` is owed before it: the rest of the pattern in progress, or,
between two patterns, the tail of every row whose first byte `b` can be. None where `b` does not fit. -/
def utf8Step (rows : List Utf8Row) (b : Byte) (want : List (Nat × Nat)) : List (List (Nat × Nat)) :=
  match want with
  | r :: more => if inRange b r.1 r.2 then [more] else []
  | [] => (rows.filter (fun r => inRange b r.lo r.hi)).map Utf8Row.tail

/-- Whether the bytes can end between two patterns, with any of `wants` owed before them. -/
def utf8Run (rows : List Utf8Row) (wants : List (List (Nat × Nat))) : List Byte → Bool
  | [] => wants.any List.isEmpty
  | b :: rest => utf8Run rows (wants.flatMap (utf8Step rows b)) rest

/-- `utf8_valid` as the host supplies it (R9). Of a table: a concatenation of zero or more of its patterns and nothing
else (R117). -/
def utf8Valid (p : Utf8Predicate) (bytes : List Byte) : Bool :=
  match p with
  | .patterns rows => utf8Run rows [[]] bytes
  | .other n => Config.utf8Other n bytes

end Sys2Proof.Machine
end

