-- ==== Sys2Proof/Machine/Encoder.lean ====
section
/-! DEFINITION. The frame encoder (45_encoder): `Serialize` (R64), the general rule ENC (R150) and its rows. -/

namespace Sys2Proof.Machine

/-- Byte 0 of an emitted frame: raw more/fin bit, RSV 000, opcode (R64, R75). -/
def serialByte0 (finPolicy more : Bool) (opc : BitVec 4) : Byte := byte0Of (rawMoreBit finPolicy more) opc

/-- What follows the length field: the key and the masked payload, or the plain payload (R64, R102). -/
def serialBody (mk : Option Key) (payload : List Byte) : List Byte :=
  match mk with
  | some key => keyList key ++ mask payload key
  | none => payload

/-- `Serialize` (R64); `mk` is the key of a masked frame. `none` where the payload is not encodable (R88). -/
def serialize (finPolicy more : Bool) (opc : BitVec 4) (mk : Option Key) (payload : List Byte) :
    Option (List Byte) :=
  match encodeLength payload.length (maskValue mk.isSome) with
  | some len => some (serialByte0 finPolicy more opc :: (len ++ serialBody mk payload))
  | none => none

/-- The key an ENC uses: only when `mask_en = 1` (R102, R150). -/
def encKey (maskEn : Bool) (key : Key) : Option Key := if maskEn then some key else none

/-- ENC(type, payload, mask_en, key) (R150): reads no state but FIN_POLICY, writes none of the decoder's (R19). An
unsupported type answers Error, emits nothing, is not latched (R156, R171). A payload of `2^32` bytes or more is
refused whatever the type (R88, log 13). -/
def encGeneral (type : BitVec 4) (payload : List Byte) (maskEn : Bool) (key : Key) (s : State) :
    Host.Outcome State Fault Refusal :=
  if encodableLength payload then
    match typeToOpcode type with
    | .error k => .next (respond (.enc (.error k)) s)
    | .ok opc =>
      match serialize s.cfg.finPolicy false opc (encKey maskEn key) payload with
      | some bytes => .next (respond (.enc (.frame bytes)) (emitTx bytes s))
      | none => .refused .encPayloadNotEncodable
  else .refused .encPayloadNotEncodable

/-- ENC.CLOSE (R153). -/
def execEncClose (payload : List Byte) (maskEn : Bool) (key : Key) (s : State) : Host.Outcome State Fault Refusal :=
  encGeneral 1#4 payload maskEn key s

/-- ENC.PING (R154). -/
def execEncPing (payload : List Byte) (maskEn : Bool) (key : Key) (s : State) : Host.Outcome State Fault Refusal :=
  encGeneral 2#4 payload maskEn key s

/-- ENC.PONG (R155). -/
def execEncPong (payload : List Byte) (maskEn : Bool) (key : Key) (s : State) : Host.Outcome State Fault Refusal :=
  encGeneral 3#4 payload maskEn key s

/-- ENC.TEXT (R151). -/
def execEncText (payload : List Byte) (maskEn : Bool) (key : Key) (s : State) : Host.Outcome State Fault Refusal :=
  encGeneral 4#4 payload maskEn key s

/-- ENC.BINARY (R152). -/
def execEncBinary (payload : List Byte) (maskEn : Bool) (key : Key) (s : State) : Host.Outcome State Fault Refusal :=
  encGeneral 5#4 payload maskEn key s

/-- ENC.ILLEGAL0, the type of Continuation (R156). -/
def execEncIllegal0 (payload : List Byte) (maskEn : Bool) (key : Key) (s : State) :
    Host.Outcome State Fault Refusal :=
  encGeneral 0#4 payload maskEn key s

/-- ENC.ILLEGAL6_7 (R156). -/
def execEncIllegal6to7 (x : BitVec 1) (payload : List Byte) (maskEn : Bool) (key : Key) (s : State) :
    Host.Outcome State Fault Refusal :=
  encGeneral (3#3 ++ x) payload maskEn key s

/-- ENC.ILLEGAL8_15 (R156). -/
def execEncIllegal8to15 (x : BitVec 3) (payload : List Byte) (maskEn : Bool) (key : Key) (s : State) :
    Host.Outcome State Fault Refusal :=
  encGeneral (1#1 ++ x) payload maskEn key s

end Sys2Proof.Machine
end

