-- ==== Sys2Proof/Machine/Reassembler.lean ====
section
/-! DEFINITION. The fragmentation reassembler (43_reassembler): what a fully parsed frame of each type does to `pend`
and `acc`, and its answer. -/

namespace Sys2Proof.Machine

/-- The reassembler's answer (43_reassembler section 1) with the state after it. -/
inductive ReasmEnd where
  | emit (t : FrameType) (payload : List Byte) (s : State)
  | absorb (s : State)
  | bad (k : ErrKind) (s : State)
  | stop (f : Fault)

/-- The terminating frame of a fragmented message (R111): a Text message is validated as a whole; on failure `pend`
and `acc` keep the appended buffer. -/
def finishMessage (t : DataType) (whole : List Byte) (s : State) : ReasmEnd :=
  if t = .text ∧ utf8Valid s.cfg.utf8 whole = false then
    .bad .invalidPayloadEncoding (setFrag (some t) (some whole) s)
  else
    .emit (dataFrameType t) whole (setFrag none none s)

/-- The append of a Continuation frame while Accumulating (R111), subject to ACC_CAP (R118). -/
def appendFragment (t : DataType) (sofar payload : List Byte) (more : Bool) (s : State) : ReasmEnd :=
  if fitsCap s.cfg.accCap (sofar ++ payload).length then
    if more then .absorb (setFrag (some t) (some (sofar ++ payload)) s)
    else finishMessage t (sofar ++ payload) s
  else .bad .accOverflow s

/-- FRAME.CONT (R111, R177). A pending type with no accumulation buffer, a state outside R13, has no buffer value to
append to: there the model stops (log 8). -/
def reasmCont (payload : List Byte) (more : Bool) (s : State) : ReasmEnd :=
  match s.pend, s.acc with
  | none, _ => .bad .unexpectedContinuationFrame s
  | some t, some sofar => appendFragment t sofar payload more s
  | some _, none => .stop .fragIncoherent

/-- The first fragment of a message (R112, R113): `acc` is created, subject to ACC_CAP (R118). -/
def startMessage (t : DataType) (payload : List Byte) (s : State) : ReasmEnd :=
  if fitsCap s.cfg.accCap payload.length then .absorb (setFrag (some t) (some payload) s)
  else .bad .accOverflow s

/-- FRAME.TEXT (R112). -/
def reasmText (payload : List Byte) (more : Bool) (s : State) : ReasmEnd :=
  if s.pend.isSome then .bad .dataFrameInsteadContinuation s
  else if more then startMessage .text payload s
  else if utf8Valid s.cfg.utf8 payload then .emit .text payload s
  else .bad .invalidPayloadEncoding s

/-- FRAME.BINARY (R113). -/
def reasmBinary (payload : List Byte) (more : Bool) (s : State) : ReasmEnd :=
  if s.pend.isSome then .bad .dataFrameInsteadContinuation s
  else if more then startMessage .binary payload s
  else .emit .binary payload s

/-- A control frame bypasses accumulation (R114 to R116). -/
def reasmControl (t : FrameType) (payload : List Byte) (more : Bool) (s : State) : ReasmEnd :=
  if more then .bad .fragmentedControlFrame s else .emit t payload s

/-- FRAME.CLOSE (R114). -/
def reasmClose (payload : List Byte) (more : Bool) (s : State) : ReasmEnd := reasmControl .close payload more s

/-- FRAME.PING (R115). -/
def reasmPing (payload : List Byte) (more : Bool) (s : State) : ReasmEnd := reasmControl .ping payload more s

/-- FRAME.PONG (R116). -/
def reasmPong (payload : List Byte) (more : Bool) (s : State) : ReasmEnd := reasmControl .pong payload more s

end Sys2Proof.Machine
end

