-- ==== Sys2Proof/Machine/Parser.lean ====
section
/-! DEFINITION. The frame parser (44_frame_parser): steps 4 to 10 of the decode sequence, the meaning of each frame
row as one iteration of DEC's loop, and the loop. -/

namespace Sys2Proof.Machine

/-- A header that passed every check and whose frame is wholly buffered: `Hdr(h, masked, L, type, more, total)`. -/
structure Hdr where
  h          : Nat
  masked     : Bool
  payloadLen : Nat
  type       : FrameType
  more       : Bool
  total      : Nat
deriving DecidableEq, Repr

/-- `ParseResult` (00_scope section 5.3). -/
inductive ParseResult where
  | needMore
  | bad (k : ErrKind)
  | hdr (hd : Hdr)
deriving DecidableEq, Repr

/-- Total frame length (R57), on natural numbers (R95). -/
def frameTotal (h : Nat) (masked : Bool) (payloadLen : Nat) : Nat := h + keyBytes masked + payloadLen

/-- Steps 7 (second half), 8 and 9 (R136, R137, R138) once the length is known. -/
def checkLength (t : FrameType) (more : Bool) (h : Nat) (masked : Bool) (payloadLen : Nat) (s : State) : ParseResult :=
  if isControl t ∧ 125 < payloadLen then .bad .controlFramePayloadTooLong
  else if s.cfg.maxFs < frameTotal h masked payloadLen then .bad .tooLong
  else if s.rx.length < frameTotal h masked payloadLen then .needMore
  else .hdr ⟨h, masked, payloadLen, t, more, frameTotal h masked payloadLen⟩

/-- Steps 4 to 9 (R133 to R138) for a frame of type `t` with raw more/fin bit `f`, mask flag `m` and length code `l`
at the cursor. Reads `rx`, `pend`, `cfg`; writes nothing. -/
def checkHeader (t : FrameType) (f m : Bool) (l : BitVec 7) (s : State) : ParseResult :=
  if moreFlag s.cfg.finPolicy f ∧ isControl t then .bad .fragmentedControlFrame
  else if isData t ∧ s.pend.isSome then .bad .dataFrameInsteadContinuation
  else match decodeLengthAs s.cfg.highLen m l s.rx with
    | .needMore => .needMore
    | .bad k => .bad k
    | .len h masked payloadLen => checkLength t (moreFlag s.cfg.finPolicy f) h masked payloadLen s

/-- What the reassembler's answer means for DEC (R140, R119, R184). The type leaves on the message port as its opcode
(R78). -/
def deliver : ReasmEnd → FrameEnd
  | .emit t payload s => .done (.message t.opcode payload validatedFlag) s
  | .absorb s => .absorbed s
  | .bad k s => raiseError k s
  | .stop f => .stop f

/-- Step 10 (R139): the payload is extracted and unmasked, the whole frame is consumed, then the reassembler runs. -/
def step10 (hd : Hdr) (reasm : List Byte → Bool → State → ReasmEnd) (s : State) : FrameEnd :=
  deliver (reasm (payloadAt s.rx hd.h hd.masked hd.payloadLen) hd.more (consume hd.total s))

/-- Steps 4 to 10 for a frame of type `t` whose reassembler rule is `reasm`. -/
def runFrame (t : FrameType) (f m : Bool) (l : BitVec 7) (reasm : List Byte → Bool → State → ReasmEnd)
    (s : State) : FrameEnd :=
  match checkHeader t f m l s with
  | .needMore => .done .incomplete s
  | .bad k => raiseError k s
  | .hdr hd => step10 hd reasm s

/-! ## One definition per frame row -/

/-- FRAME.CONT as one iteration of the loop (R111). -/
def frameCont (f m : Bool) (l : BitVec 7) (s : State) : FrameEnd := runFrame .continuation f m l reasmCont s

/-- FRAME.CLOSE (R114). -/
def frameClose (f m : Bool) (l : BitVec 7) (s : State) : FrameEnd := runFrame .close f m l reasmClose s

/-- FRAME.PING (R115). -/
def framePing (f m : Bool) (l : BitVec 7) (s : State) : FrameEnd := runFrame .ping f m l reasmPing s

/-- FRAME.PONG (R116). -/
def framePong (f m : Bool) (l : BitVec 7) (s : State) : FrameEnd := runFrame .pong f m l reasmPong s

/-- FRAME.TEXT (R112). -/
def frameText (f m : Bool) (l : BitVec 7) (s : State) : FrameEnd := runFrame .text f m l reasmText s

/-- FRAME.BINARY (R113). -/
def frameBinary (f m : Bool) (l : BitVec 7) (s : State) : FrameEnd := runFrame .binary f m l reasmBinary s

/-- ILLEGAL.RSV1: step 2 raises ReservedBitUsed (R131, R173). -/
def illegalRsv1 (s : State) : FrameEnd := raiseError .reservedBitUsed s

/-- ILLEGAL.RSV2 (R131, R173). -/
def illegalRsv2 (s : State) : FrameEnd := raiseError .reservedBitUsed s

/-- ILLEGAL.RSV3 (R131, R173). -/
def illegalRsv3 (s : State) : FrameEnd := raiseError .reservedBitUsed s

/-- ILLEGAL.OPC6_7: step 3 raises UnknownOpcode (R132, R172). -/
def illegalOpc6to7 (s : State) : FrameEnd := raiseError .unknownOpcode s

/-- ILLEGAL.OPC8_15 (R132, R172). -/
def illegalOpc8to15 (s : State) : FrameEnd := raiseError .unknownOpcode s

/-- The frame whose first two bytes are `b0`, `b1`, by the row of the opcode table byte 0 selects (R131, R132). -/
def frameStep (b0 b1 : Byte) (s : State) : FrameEnd :=
  match frameRow b0 with
  | .frame .continuation => frameCont (highBit b0) (highBit b1) (low7 b1) s
  | .frame .close => frameClose (highBit b0) (highBit b1) (low7 b1) s
  | .frame .ping => framePing (highBit b0) (highBit b1) (low7 b1) s
  | .frame .pong => framePong (highBit b0) (highBit b1) (low7 b1) s
  | .frame .text => frameText (highBit b0) (highBit b1) (low7 b1) s
  | .frame .binary => frameBinary (highBit b0) (highBit b1) (low7 b1) s
  | .rsv1 => illegalRsv1 s
  | .rsv2 => illegalRsv2 s
  | .rsv3 => illegalRsv3 s
  | .opc6to7 => illegalOpc6to7 s
  | .opc8to15 => illegalOpc8to15 s

/-! ## The loop of DEC -/

/-- DEC's loop (R140). Every absorbed frame consumed at least two bytes, so `fuel` of at least `len(rx)` never runs out
before the buffer does. -/
def decLoop : Nat → State → Host.Outcome State Fault Refusal
  | 0, s => .next (respond (.dec .incomplete) s)
  | fuel + 1, s =>
    match s.rx with
    | b0 :: b1 :: _ =>
      match frameStep b0 b1 s with
      | .done r s' => .next (respond (.dec r) s')
      | .absorbed s' => decLoop fuel s'
      | .stop f => .fault f
    | _ => .next (respond (.dec .incomplete) s)

/-- How DEC goes on after one frame (R140). -/
def afterFrame : FrameEnd → Host.Outcome State Fault Refusal
  | .done r s => .next (respond (.dec r) s)
  | .absorbed s => decLoop s.rx.length s
  | .stop f => .fault f

/-- The frame at the cursor is executed by DEC: under a latched fault nothing is inspected (R143); otherwise the frame
runs and, when it is absorbed, the loop goes on (log 9). -/
def decFrame (frame : State → FrameEnd) (s : State) : Host.Outcome State Fault Refusal :=
  match s.fault with
  | some k => .next (respond (.dec (.protocolError k)) s)
  | none => afterFrame (frame s)

end Sys2Proof.Machine
end

