-- ==== Sys2Proof/Machine/Frames.lean ====
section
/-! DEFINITION. The meanings of the six wire frames: DEC executing the frame at the cursor (R111 to R116, R140). -/

namespace Sys2Proof.Machine

/-- FRAME.CONT (R111). -/
def execFrameCont (f m : Bool) (l : BitVec 7) (s : State) : Host.Outcome State Fault Refusal :=
  decFrame (frameCont f m l) s

/-- FRAME.CLOSE (R114). -/
def execFrameClose (f m : Bool) (l : BitVec 7) (s : State) : Host.Outcome State Fault Refusal :=
  decFrame (frameClose f m l) s

/-- FRAME.PING (R115). -/
def execFramePing (f m : Bool) (l : BitVec 7) (s : State) : Host.Outcome State Fault Refusal :=
  decFrame (framePing f m l) s

/-- FRAME.PONG (R116). -/
def execFramePong (f m : Bool) (l : BitVec 7) (s : State) : Host.Outcome State Fault Refusal :=
  decFrame (framePong f m l) s

/-- FRAME.TEXT (R112). -/
def execFrameText (f m : Bool) (l : BitVec 7) (s : State) : Host.Outcome State Fault Refusal :=
  decFrame (frameText f m l) s

/-- FRAME.BINARY (R113). -/
def execFrameBinary (f m : Bool) (l : BitVec 7) (s : State) : Host.Outcome State Fault Refusal :=
  decFrame (frameBinary f m l) s

end Sys2Proof.Machine
end

