-- ==== Sys2Proof/Machine/HostOps.lean ====
section
/-! DEFINITION. The meanings of RX.PUSH (R142), DEC (R140), RESET (R190) and of the pseudo-frame FRAG (R66). -/

namespace Sys2Proof.Machine

/-- RX.PUSH(bytes) (R142). -/
def execRxPush (bytes : List Byte) (s : State) : Host.Outcome State Fault Refusal := .next (pushBytes bytes s)

/-- DEC() (R140): a latched fault is repeated and nothing is inspected (R143); otherwise the loop runs. -/
def execDec (s : State) : Host.Outcome State Fault Refusal :=
  match s.fault with
  | some k => .next (respond (.dec (.protocolError k)) s)
  | none => decLoop s.rx.length s

/-- RESET() (R190): returns nothing. -/
def execReset (s : State) : Host.Outcome State Fault Refusal := .next (retire (clearState s))

/-- The frames of FRAG after the first: `CONT+more p1`, ..., `CONT pn` (R66). -/
def fragTail (finPolicy : Bool) : List FragPart → Option (List Byte)
  | [] => some []
  | [p] => serialize finPolicy false 0#4 p.mask p.payload
  | p :: q :: rest =>
    match serialize finPolicy true 0#4 p.mask p.payload, fragTail finPolicy (q :: rest) with
    | some bytes, some more => some (bytes ++ more)
    | _, _ => none

/-- The byte sequence FRAG(T, p0, ..., pn) expands to (R66, R64); `none` where it is not defined. -/
def fragExpand (finPolicy : Bool) (t : DataType) (parts : List FragPart) : Option (List Byte) :=
  match parts with
  | p :: q :: rest =>
    match serialize finPolicy true (dataFrameType t).opcode p.mask p.payload, fragTail finPolicy (q :: rest) with
    | some bytes, some more => some (bytes ++ more)
    | _, _ => none
  | _ => none

/-- FRAG (R66): the test bench expands it and delivers the frames to the decoder as one push (log 12). -/
def execFrag (t : DataType) (parts : List FragPart) (s : State) : Host.Outcome State Fault Refusal :=
  match fragExpand s.cfg.finPolicy t parts with
  | some bytes => .next (pushBytes bytes s)
  | none => .refused .fragIllFormed

end Sys2Proof.Machine
end

