-- ==== Sys2Proof/Machine/Illegal.lean ====
section
/-! DEFINITION. The meanings of the illegal encodings of byte 0: each takes its exception (R131, R132, R184). The bits
the row leaves free have no influence. -/

namespace Sys2Proof.Machine

/-- ILLEGAL.RSV1 (R131, R173). -/
def execIllegalRsv1 (_ : Bool) (_ : BitVec 6) (_ : Bool) (_ : BitVec 7) (s : State) :
    Host.Outcome State Fault Refusal :=
  decFrame illegalRsv1 s

/-- ILLEGAL.RSV2 (R131, R173). -/
def execIllegalRsv2 (_ : Bool) (_ : BitVec 5) (_ : Bool) (_ : BitVec 7) (s : State) :
    Host.Outcome State Fault Refusal :=
  decFrame illegalRsv2 s

/-- ILLEGAL.RSV3 (R131, R173). -/
def execIllegalRsv3 (_ : Bool) (_ : BitVec 4) (_ : Bool) (_ : BitVec 7) (s : State) :
    Host.Outcome State Fault Refusal :=
  decFrame illegalRsv3 s

/-- ILLEGAL.OPC6_7 (R132, R172). -/
def execIllegalOpc6to7 (_ : Bool) (_ : BitVec 1) (_ : Bool) (_ : BitVec 7) (s : State) :
    Host.Outcome State Fault Refusal :=
  decFrame illegalOpc6to7 s

/-- ILLEGAL.OPC8_15 (R132, R172). -/
def execIllegalOpc8to15 (_ : Bool) (_ : BitVec 3) (_ : Bool) (_ : BitVec 7) (s : State) :
    Host.Outcome State Fault Refusal :=
  decFrame illegalOpc8to15 s

end Sys2Proof.Machine
end

