-- ==== Sys2Proof/Machine/LenForms.lean ====
section
/-! DEFINITION. The meanings of the three length forms exercised on their own (41_length_codec section 3): the form is
evaluated on the buffer, nothing is consumed, the result is the response (log 11). -/

namespace Sys2Proof.Machine

/-- LEN7 (R89). -/
def execLen7 (m : Bool) (l : BitVec 7) (s : State) : Host.Outcome State Fault Refusal :=
  .next (respond (.length (lenShort m l)) s)

/-- LEN16 (R90, R93). -/
def execLen16 (m : Bool) (s : State) : Host.Outcome State Fault Refusal :=
  .next (respond (.length (lenWide16 m s.rx)) s)

/-- LEN64 (R91, R92, R93). -/
def execLen64 (m : Bool) (s : State) : Host.Outcome State Fault Refusal :=
  .next (respond (.length (lenWide64 s.cfg.highLen m s.rx)) s)

end Sys2Proof.Machine
end

