-- ==== Sys2Proof/Machine/Dispatch.lean ====
section
/-! DEFINITION. `exec`: one arm per constructor of `Instr`, each one direct call of its meaning. -/

namespace Sys2Proof.Machine

def exec (i : Instr) (s : State) : Host.Outcome State Fault Refusal :=
  match i with
  | .frameCont f m l => Sys2Proof.Machine.execFrameCont f m l s
  | .frameClose f m l => Sys2Proof.Machine.execFrameClose f m l s
  | .framePing f m l => Sys2Proof.Machine.execFramePing f m l s
  | .framePong f m l => Sys2Proof.Machine.execFramePong f m l s
  | .frameText f m l => Sys2Proof.Machine.execFrameText f m l s
  | .frameBinary f m l => Sys2Proof.Machine.execFrameBinary f m l s
  | .illegalRsv1 f x m l => Sys2Proof.Machine.execIllegalRsv1 f x m l s
  | .illegalRsv2 f x m l => Sys2Proof.Machine.execIllegalRsv2 f x m l s
  | .illegalRsv3 f x m l => Sys2Proof.Machine.execIllegalRsv3 f x m l s
  | .illegalOpc6to7 f x m l => Sys2Proof.Machine.execIllegalOpc6to7 f x m l s
  | .illegalOpc8to15 f x m l => Sys2Proof.Machine.execIllegalOpc8to15 f x m l s
  | .len7 m l => Sys2Proof.Machine.execLen7 m l s
  | .len16 m => Sys2Proof.Machine.execLen16 m s
  | .len64 m => Sys2Proof.Machine.execLen64 m s
  | .encClose p e k => Sys2Proof.Machine.execEncClose p e k s
  | .encPing p e k => Sys2Proof.Machine.execEncPing p e k s
  | .encPong p e k => Sys2Proof.Machine.execEncPong p e k s
  | .encText p e k => Sys2Proof.Machine.execEncText p e k s
  | .encBinary p e k => Sys2Proof.Machine.execEncBinary p e k s
  | .encIllegal0 p e k => Sys2Proof.Machine.execEncIllegal0 p e k s
  | .encIllegal6to7 x p e k => Sys2Proof.Machine.execEncIllegal6to7 x p e k s
  | .encIllegal8to15 x p e k => Sys2Proof.Machine.execEncIllegal8to15 x p e k s
  | .rxPush bytes => Sys2Proof.Machine.execRxPush bytes s
  | .dec => Sys2Proof.Machine.execDec s
  | .reset => Sys2Proof.Machine.execReset s
  | .frag t parts => Sys2Proof.Machine.execFrag t parts s

end Sys2Proof.Machine
end

