-- ==== Sys2Proof/Machine/Fetch.lean ====
section
/-! DEFINITION. Fetching: the instruction the oldest pending request makes the block run, and how a word of the opcode
table is presented to it. -/

namespace Sys2Proof.Machine

/-- What a DEC request runs: the frame at the cursor when no fault is latched and its two header bytes are buffered
(R15, R130, R143), else DEC itself. Either way the step is what DEC does (log 9). -/
def fetchDec (s : State) : Code :=
  match s.fault, s.rx with
  | none, b0 :: b1 :: _ => .frame b0 b1
  | _, _ => .port .dec

/-- The code a request presents to the decoder. -/
def requestCode (r : Request) (s : State) : Code :=
  match r with
  | .host .dec => fetchDec s
  | .host op => .port op
  | .bench (.lenByte b1) => .len b1
  | .bench (.frag t parts) => .frag t parts

/-- The code of the oldest pending request (R42); `none` while the block waits for the host (R191). -/
def fetchCode (s : State) : Option Code :=
  match s.ops with
  | [] => none
  | r :: _ => some (requestCode r s)

/-- Presents a code as the next thing the block runs: a request in front of the pending ones and, for a code read
from the buffer, the frame's bytes with every byte after the given ones zero (log 6, log 14). A frame is fetched only
while no fault is latched (R143), so the latch is cleared with it. -/
def presentCode (c : Code) (s : State) : State :=
  match c with
  | .frame b0 b1 =>
    { s with rx := b0 :: b1 :: List.replicate (zeroTail b1) 0#8, fault := none, ops := .host .dec :: s.ops }
  | .len b1 =>
    { s with rx := 0#8 :: b1 :: List.replicate (zeroExt b1) 0#8, ops := .bench (.lenByte b1) :: s.ops }
  | .port op => { s with ops := .host op :: s.ops }
  | .frag t parts => { s with ops := .bench (.frag t parts) :: s.ops }

end Sys2Proof.Machine
end

