-- ==== Sys2Proof/Machine/Step.lean ====
section
/-! DEFINITION. One step: the oldest pending request is executed, whole (R39, R42, R201). -/

namespace Sys2Proof.Machine

/-- One step. With no request pending the block waits (R191): the step leaves the state as it is (log 6). -/
def step (s : State) : Host.Outcome State Fault Refusal :=
  match fetchCode s with
  | none => .next s
  | some c => exec (decode c) s

/-- `s` with the instruction of the table word `w` placed so that the very next step runs it (log 14). A word that
is no code of the table places nothing. -/
def State.withFetchWord (s : State) (nbits w : Nat) : State :=
  match tableCode nbits w with
  | some c => presentCode c s
  | none => s

end Sys2Proof.Machine
end

