-- ==== Sys2Proof/Safety.lean ====
section
/-! DEFINITION. The terms claims are stated in: the invariants of the block, what a lawful response is, and the DEC
operation transcribed from the spec's own pseudocode, as a second reading to hold the machine against; and the classes
of rows. -/

namespace Sys2Proof.Machine

/-! ## Invariants -/

/-- R13: the pending type is set if and only if the accumulation buffer is. -/
def State.coherent (s : State) : Bool := s.pend.isSome == s.acc.isSome

/-- The buffers keep their capacities (R8, R118, R142). -/
def State.buffersWf (s : State) : Bool :=
  fitsCap s.cfg.rxCap s.rx.length && (s.acc.map (fun a => fitsCap s.cfg.accCap a.length)).getD true

/-- The kinds raised on the decode side (R170): every kind but UnknownFrameType. -/
def ErrKind.decodeSide : ErrKind → Bool
  | .unknownFrameType => false
  | .unknownOpcode => true
  | .reservedBitUsed => true
  | .fragmentedControlFrame => true
  | .controlFramePayloadTooLong => true
  | .dataFrameInsteadContinuation => true
  | .unexpectedContinuationFrame => true
  | .invalidPayloadEncoding => true
  | .tooLong => true
  | .lengthRangeUnsupported => true
  | .accOverflow => true

/-- The latch holds a decode-side kind only (R14, R171). -/
def State.latchWf (s : State) : Bool := (s.fault.map ErrKind.decodeSide).getD true

/-- What a message may be under the predicate `p`: its code is 1 to 5, a type other than Continuation (R78), a control
message has at most 125 bytes (R136), and `utf8_valid` holds of a Text message (R117). -/
def messageLawful (p : Utf8Predicate) (code : BitVec 4) (payload : List Byte) : Bool :=
  match opcodeToType code with
  | .error _ => false
  | .ok t => decide (t ≠ .continuation) && (!isControl t || decide (payload.length ≤ 125))
      && (decide (t ≠ .text) || utf8Valid p payload)

/-- What a returned result may be under the predicate `p`: a message is a lawful one with `validated` set (R119); an
error has the kind its side raises (R170). -/
def Response.lawful (p : Utf8Predicate) : Response → Bool
  | .dec (.message code payload validated) => validated && messageLawful p code payload
  | .dec .incomplete => true
  | .dec (.protocolError k) => ErrKind.decodeSide k
  | .enc (.frame _) => true
  | .enc (.error k) => decide (k = .unknownFrameType)
  | .pushAccepted => true
  | .pushRefused => true
  | .length (.bad k) => decide (k = .lengthRangeUnsupported)
  | .length .needMore => true
  | .length (.len h _ payloadLen) => decide (h ≤ 10) && decide (payloadLen < 4294967296)

/-- The invariant of the machine: every step keeps it. -/
structure State.Inv (s : State) : Prop where
  coherent   : s.coherent = true
  buffersWf  : s.buffersWf = true
  latchWf    : s.latchWf = true
  outLawful  : s.out.all (Response.lawful s.cfg.utf8) = true

/-- Two states whose block, and whose configuration, are the same: they may differ in the pending requests, the
transmit stream and the results returned so far. -/
def State.sameBlock (s t : State) : Prop :=
  s.cfg = t.cfg ∧ s.rx = t.rx ∧ s.pend = t.pend ∧ s.acc = t.acc ∧ s.fault = t.fault

/-! ## DEC as the spec writes it (44_frame_parser) -/

/-- `ParseFrame()`: steps 1 to 9, in the order and with the masks of the spec's listing. -/
def refParseFrame (s : State) : ParseResult :=
  match s.rx with
  | b0 :: _ :: _ =>
    if b0 &&& 0x70#8 ≠ 0#8 then .bad .reservedBitUsed
    else if 5 < (b0 &&& 0x0F#8).toNat then .bad .unknownOpcode
    else match opcodeToType ((b0 &&& 0x0F#8).truncate 4) with
      | .error k => .bad k
      | .ok t =>
        let more := decide (b0 &&& 0x80#8 ≠ 0#8) ^^ s.cfg.finPolicy
        if more ∧ isControl t then .bad .fragmentedControlFrame
        else if isData t ∧ s.pend ≠ none then .bad .dataFrameInsteadContinuation
        else match decodeLength s.cfg.highLen s.rx with
          | .needMore => .needMore
          | .bad k => .bad k
          | .len h masked payloadLen =>
            let total := h + (if masked then 4 else 0) + payloadLen
            if isControl t ∧ 125 < payloadLen then .bad .controlFramePayloadTooLong
            else if s.cfg.maxFs < total then .bad .tooLong
            else if s.rx.length < total then .needMore
            else .hdr ⟨h, masked, payloadLen, t, more, total⟩
  | _ => .needMore

/-- `Reassemble(type, payload, more)`: by type (R139). -/
def refReassemble (t : FrameType) (payload : List Byte) (more : Bool) (s : State) : ReasmEnd :=
  match t with
  | .continuation => reasmCont payload more s
  | .close => reasmClose payload more s
  | .ping => reasmPing payload more s
  | .pong => reasmPong payload more s
  | .text => reasmText payload more s
  | .binary => reasmBinary payload more s

/-- The loop of `DEC()` (R140). -/
def refLoop : Nat → State → Host.Outcome State Fault Refusal
  | 0, s => .next (respond (.dec .incomplete) s)
  | fuel + 1, s =>
    if 1 < s.rx.length then
      match refParseFrame s with
      | .needMore => .next (respond (.dec .incomplete) s)
      | .bad k => .next (respond (.dec (.protocolError k)) { s with fault := some k })
      | .hdr hd =>
        match refReassemble hd.type (payloadAt s.rx hd.h hd.masked hd.payloadLen) hd.more (consume hd.total s) with
        | .emit t payload s' => .next (respond (.dec (.message t.opcode payload true)) s')
        | .absorb s' => refLoop fuel s'
        | .bad k s' => .next (respond (.dec (.protocolError k)) { s' with fault := some k })
        | .stop f => .fault f
    else .next (respond (.dec .incomplete) s)

/-- `DEC()` (R140, R143). Every iteration that continues consumes at least two bytes, so half the buffer's length, and
one more, bounds the iterations. -/
def refDec (s : State) : Host.Outcome State Fault Refusal :=
  match s.fault with
  | some k => .next (respond (.dec (.protocolError k)) s)
  | none => refLoop (s.rx.length / 2 + 1) s

end Sys2Proof.Machine

namespace Sys2Proof.Claims

/-! ## Classes of rows -/

/-- The rows DEC executes: the six frames, the five illegal encodings, and DEC. -/
def decodeSide : Instr → Bool
  | .frameCont _ _ _ | .frameClose _ _ _ | .framePing _ _ _ | .framePong _ _ _ | .frameText _ _ _
  | .frameBinary _ _ _ | .illegalRsv1 _ _ _ _ | .illegalRsv2 _ _ _ _ | .illegalRsv3 _ _ _ _
  | .illegalOpc6to7 _ _ _ _ | .illegalOpc8to15 _ _ _ _ | .dec => true
  | .len7 _ _ | .len16 _ | .len64 _ | .encClose _ _ _ | .encPing _ _ _ | .encPong _ _ _ | .encText _ _ _
  | .encBinary _ _ _ | .encIllegal0 _ _ _ | .encIllegal6to7 _ _ _ _ | .encIllegal8to15 _ _ _ _
  | .rxPush _ | .reset | .frag _ _ => false

/-- The rows of the ENC port. -/
def encodeSide : Instr → Bool
  | .encClose _ _ _ | .encPing _ _ _ | .encPong _ _ _ | .encText _ _ _ | .encBinary _ _ _ | .encIllegal0 _ _ _
  | .encIllegal6to7 _ _ _ _ | .encIllegal8to15 _ _ _ _ => true
  | .frameCont _ _ _ | .frameClose _ _ _ | .framePing _ _ _ | .framePong _ _ _ | .frameText _ _ _
  | .frameBinary _ _ _ | .illegalRsv1 _ _ _ _ | .illegalRsv2 _ _ _ _ | .illegalRsv3 _ _ _ _
  | .illegalOpc6to7 _ _ _ _ | .illegalOpc8to15 _ _ _ _ | .dec | .len7 _ _ | .len16 _ | .len64 _
  | .rxPush _ | .reset | .frag _ _ => false

/-- The length rows. -/
def lengthRow : Instr → Bool
  | .len7 _ _ | .len16 _ | .len64 _ => true
  | .encClose _ _ _ | .encPing _ _ _ | .encPong _ _ _ | .encText _ _ _ | .encBinary _ _ _ | .encIllegal0 _ _ _
  | .encIllegal6to7 _ _ _ _ | .encIllegal8to15 _ _ _ _ | .frameCont _ _ _ | .frameClose _ _ _ | .framePing _ _ _
  | .framePong _ _ _ | .frameText _ _ _ | .frameBinary _ _ _ | .illegalRsv1 _ _ _ _ | .illegalRsv2 _ _ _ _
  | .illegalRsv3 _ _ _ _ | .illegalOpc6to7 _ _ _ _ | .illegalOpc8to15 _ _ _ _ | .dec | .rxPush _ | .reset
  | .frag _ _ => false

end Sys2Proof.Claims
end

