-- ==== Sys2Proof/Certificates/Slice0/Obligations.lean ====
section
/-! DEFINITION. The statements about the model, each from the rules of the spec its docstring names. Where a docstring
says "(the spec's D<n>)" the rule is the spec's own decision; where it names a log entry, the clause rests on a
choice of the model. -/

namespace Sys2Proof.Claims

open Sys2Proof.Machine

/-- DEC answers `Incomplete` and leaves the block as it is in `s`. -/
def decIncomplete (s : State) : Host.Outcome State Fault Refusal := .next (respond (.dec .incomplete) s)

/-- DEC raises `k` in `s` (R184): the latch is set, the result is `ProtocolError(k)`, nothing else of the block changes. -/
def decError (k : ErrKind) (s : State) : Host.Outcome State Fault Refusal :=
  .next (respond (.dec (.protocolError k)) { s with fault := some k })

/-- DEC returns the message `Message(t, p, 1)` in `s`, the type as its 4-bit opcode (R78). -/
def decMessage (t : FrameType) (p : List Byte) (s : State) : Host.Outcome State Fault Refusal :=
  .next (respond (.dec (.message t.opcode p true)) s)

/-- The frame at the cursor has byte 0 `b0`, its length field is decoded to `L` behind `h` header bytes with mask flag
`m`, its total is within MAXFS and it is wholly buffered: steps 8 and 9 pass. -/
structure FrameHere (b0 : Byte) (m : Bool) (h L : Nat) (s : State) : Prop where
  byte0 : s.rx.head? = some b0
  len   : decodeLength s.cfg.highLen s.rx = .len h m L
  maxFs : h + keyBytes m + L ≤ s.cfg.maxFs
  here  : h + keyBytes m + L ≤ s.rx.length

/-- The same for an instruction with mask flag `m` and length code `l`, whatever the two header bytes in `rx` are. -/
structure Buffered (m : Bool) (l : BitVec 7) (h L : Nat) (s : State) : Prop where
  len   : decodeLengthAs s.cfg.highLen m l s.rx = .len h m L
  maxFs : h + keyBytes m + L ≤ s.cfg.maxFs
  here  : h + keyBytes m + L ≤ s.rx.length

/-- The state after step 10 has consumed the frame. -/
def consumed (m : Bool) (h L : Nat) (s : State) : State := consume (h + keyBytes m + L) s

/-- The payload step 10 extracts. -/
def payload (m : Bool) (h L : Nat) (s : State) : List Byte := payloadAt s.rx h m L

/-- Byte 0 names the type `t` and steps 5 and 6 pass. -/
structure HeaderAllowed (b0 : Byte) (t : FrameType) (s : State) : Prop where
  row   : frameRow b0 = .frame t
  step5 : ¬ (moreOf s.cfg.finPolicy b0 = true ∧ isControl t = true)
  step6 : ¬ (isData t = true ∧ s.pend.isSome = true)

/-- The bytes after byte 0 and the length field of an emitted frame (R102). -/
def wireBody (p : List Byte) (e : Bool) (k : Key) : List Byte :=
  if e then [k.k0, k.k1, k.k2, k.k3] ++ mask p k else p

/-- The bytes of one frame of FRAG, with the more-flag and the opcode given (R64). -/
def fragFrame (more : Bool) (opc : BitVec 4) (p : FragPart) : List Byte :=
  (serialize false more opc p.mask p.payload).getD []

/-- A byte sequence matches one row of a table of byte patterns (R117). -/
def matchesRow (r : Utf8Row) (chunk : List Byte) : Prop :=
  ∃ b rest, chunk = b :: rest ∧ r.lo ≤ b.toNat ∧ b.toNat ≤ r.hi ∧
    List.Forall₂ (fun (c : Byte) (range : Nat × Nat) => range.1 ≤ c.toNat ∧ c.toNat ≤ range.2) rest r.tail

end Sys2Proof.Claims

open Sys2Proof Sys2Proof.Machine Sys2Proof.Claims

/-! ## Encoding -/

/-- Decoding the encoding of a well-formed instruction gives it back, with every operand (R51, R52, R59, R66, R67; the
split of overlapping ILLEGAL rows is log 10). -/
def Obligations.DecodeEncodeRoundTrip : Prop :=
  ∀ i : Instr, i.wellFormed = true → decode (encode i) = i

/-- Encoding the instruction read from a code gives the code back: the decoder drops no bit (R62: every byte 0 and
byte 1 has one meaning). -/
def Obligations.EncodeDecodeRoundTrip : Prop :=
  ∀ c : Code, encode (decode c) = c

/-- Words written out from R51, R52, R59, R60, R61 and R67 decode to the instruction they stand for. -/
def Obligations.WrittenWordsDecode : Prop :=
  decode (.frame 0x80#8 0x85#8) = .frameCont true true 5#7 ∧
  decode (.frame 0x01#8 0x02#8) = .frameClose false false 2#7 ∧
  decode (.frame 0x84#8 0xFE#8) = .frameText true true 126#7 ∧
  decode (.frame 0x24#8 0x05#8) = .illegalRsv2 false 4#5 false 5#7 ∧
  decode (.frame 0x8F#8 0x00#8) = .illegalOpc8to15 true 7#3 false 0#7 ∧
  decode (.len 0xFE#8) = .len16 true ∧
  (∀ p e k, decode (.port (.enc 4#4 p e k)) = .encText p e k ∧
    decode (.port (.enc 7#4 p e k)) = .encIllegal6to7 1#1 p e k)

/-! ## The step -/

/-- A step runs the decoded instruction. With a DEC request pending, no fault and two bytes buffered it is the frame
whose header is at the cursor (R15); with another port request it is that operation (R67); the bench requests
are log 11 and log 12; with no request the block waits (R191, log 6). -/
def Obligations.StepRunsDecodedInstruction : Prop :=
  (∀ s b0 b1 rest q, s.ops = .host .dec :: q → s.fault = none → s.rx = b0 :: b1 :: rest →
    step s = exec (decodeFrame b0 b1) s) ∧
  (∀ s q, s.ops = .host .dec :: q → (s.fault ≠ none ∨ s.rx.length < 2) → step s = exec .dec s) ∧
  (∀ s op q, s.ops = .host op :: q → op ≠ .dec → step s = exec (decodeOp op) s) ∧
  (∀ s b1 q, s.ops = .bench (.lenByte b1) :: q → step s = exec (decodeLen b1) s) ∧
  (∀ s t parts q, s.ops = .bench (.frag t parts) :: q → step s = exec (.frag t parts) s) ∧
  (∀ s, s.ops = [] → step s = .next s)

/-- DEC with two bytes buffered is the execution of the frame whose header is at the cursor, then the rest of the loop
(R140, log 9). -/
def Obligations.DecRunsFrameAtCursor : Prop :=
  ∀ s b0 b1 rest, s.rx = b0 :: b1 :: rest → exec .dec s = exec (decodeFrame b0 b1) s

/-- The machine's DEC is the DEC of the spec's listing: `ParseFrame` with the masks and the order of 44_frame_parser
section 2, step 10, and the loop of R140. -/
def Obligations.DecMatchesPseudocode : Prop :=
  ∀ s, exec .dec s = refDec s

/-- Every DEC terminates with exactly one result in every state that meets R13 (R140, R201). That a frame row of its own
ends so too, also when its frame is absorbed, is the model's choice: it runs the rest of DEC's loop (log 9), where in
the spec an absorbed frame gives no result. -/
def Obligations.DecodeSideCompletes : Prop :=
  ∀ i s, decodeSide i = true → s.coherent = true → ∃ t r, exec i s = .next t ∧ t.out = s.out ++ [.dec r]

/-! ## Reset and invariants -/

/-- R20 (the spec's D17): the state at power-up and after RESET, whatever the state before. -/
def Obligations.ResetGivesResetState : Prop :=
  (State.reset.rx = [] ∧ State.reset.pend = none ∧ State.reset.acc = none ∧ State.reset.fault = none) ∧
  ∀ s, ∃ t, exec .reset s = .next t ∧ t.rx = [] ∧ t.pend = none ∧ t.acc = none ∧ t.fault = none

/-- RESET returns nothing and leaves the configuration alone (R190, R191); that the transmit stream, the results and the
other requests stay is the model's choice (log 6, log 7). -/
def Obligations.ResetLeavesThePorts : Prop :=
  ∀ s t, exec .reset s = .next t → t.cfg = s.cfg ∧ t.tx = s.tx ∧ t.out = s.out ∧ t.ops = s.ops.tail

/-- The reset state meets the invariant of the machine. -/
def Obligations.ResetMeetsInvariant : Prop := State.reset.Inv

/-- Every step keeps the invariant of the machine: R13; capacities (R118, R142); the latch holds a decode-side kind
(R14, R171); every returned result is lawful (R119, R117, R136, R170). -/
def Obligations.StepKeepsInvariant : Prop :=
  ∀ s t, s.Inv → step s = .next t → t.Inv

/-- R13 on its own: every rule preserves it, for every instruction and state, and the reset state satisfies it. -/
def Obligations.CoherencePreserved : Prop :=
  State.reset.coherent = true ∧ ∀ i s t, s.coherent = true → exec i s = .next t → t.coherent = true

/-- In a state that meets R13 no instruction makes the model fault (log 8). -/
def Obligations.CoherentStatesNeverFault : Prop :=
  ∀ i s f, s.coherent = true → exec i s ≠ .fault f

/-- R17: the configuration is written by no operation. -/
def Obligations.ConfigurationNeverWritten : Prop :=
  ∀ i s t, exec i s = .next t → t.cfg = s.cfg

/-! ## The fault latch -/

/-- R143 (the spec's D11): under a latched fault DEC returns the latched kind and changes nothing. -/
def Obligations.LatchedFaultRepeats : Prop :=
  ∀ s k, s.fault = some k → exec .dec s = .next (respond (.dec (.protocolError k)) s)

/-- Only RESET clears the latch, and nothing replaces the first error (R186). -/
def Obligations.OnlyResetClearsFault : Prop :=
  ∀ i s t k, s.fault = some k → exec i s = .next t → t.fault = some k ∨ (i = .reset ∧ t.fault = none)

/-- Error entry (R184): the latch is set exactly when the operation answers `ProtocolError` of that kind. -/
def Obligations.LatchSetExactlyOnError : Prop :=
  ∀ i s t, s.fault = none → exec i s = .next t →
    ∀ k, t.fault = some k ↔ t.out = s.out ++ [.dec (.protocolError k)]

/-! ## Header checks -/

/-- Fewer than two bytes: DEC answers Incomplete and reads nothing (R130, R146). -/
def Obligations.ShortBufferIncomplete : Prop :=
  ∀ s, s.fault = none → s.rx.length < 2 → exec .dec s = decIncomplete s

/-- R131: with two bytes buffered a reserved bit raises ReservedBitUsed, whatever else the frame and the state hold. -/
def Obligations.ReservedBitRaises : Prop :=
  ∀ s b0 b1 rest, s.rx = b0 :: b1 :: rest → b0 &&& 0x70#8 ≠ 0#8 → s.fault = none →
    exec .dec s = decError .reservedBitUsed s

/-- R132: reserved bits clear and an opcode of 6 to 15 raise UnknownOpcode. -/
def Obligations.UnknownOpcodeRaises : Prop :=
  ∀ s b0 b1 rest, s.rx = b0 :: b1 :: rest → b0 &&& 0x70#8 = 0#8 → 6 ≤ (b0 &&& 0x0F#8).toNat → s.fault = none →
    exec .dec s = decError .unknownOpcode s

/-- The five illegal rows take their exception in every state without a latched fault: ReservedBitUsed for the three
RSV rows, UnknownOpcode for the two opcode rows; `rx` keeps the frame (R172, R173). Such a row as an instruction of
its own is log 9. -/
def Obligations.IllegalRowsTakeTheirException : Prop :=
  ∀ f m l s, s.fault = none →
    (∀ x, exec (.illegalRsv1 f x m l) s = decError .reservedBitUsed s) ∧
    (∀ x, exec (.illegalRsv2 f x m l) s = decError .reservedBitUsed s) ∧
    (∀ x, exec (.illegalRsv3 f x m l) s = decError .reservedBitUsed s) ∧
    (∀ x, exec (.illegalOpc6to7 f x m l) s = decError .unknownOpcode s) ∧
    (∀ x, exec (.illegalOpc8to15 f x m l) s = decError .unknownOpcode s)

/-- R134: a control frame with the more-flag set raises FragmentedControlFrame before its length is looked at. -/
def Obligations.FragmentedControlRaises : Prop :=
  ∀ s b0 b1 rest, s.rx = b0 :: b1 :: rest → b0 ∈ [0x81#8, 0x82#8, 0x83#8] → s.cfg.finPolicy = false →
    s.fault = none → exec .dec s = decError .fragmentedControlFrame s

/-- R135: a data frame while a message is pending raises DataFrameInsteadContinuation, for either value of `more`, as
soon as two bytes are buffered, and is not consumed; Continuation and control frames pass this step in either
state: steps 1 to 9 (`refParseFrame`, tied to the machine by DecMatchesPseudocode) do not look at `pend` for them. -/
def Obligations.DataFrameWhilePendingRaises : Prop :=
  (∀ s b0 b1 rest, s.rx = b0 :: b1 :: rest → b0 ∈ [0x04#8, 0x84#8, 0x05#8, 0x85#8] → s.pend.isSome = true →
    s.fault = none → exec .dec s = decError .dataFrameInsteadContinuation s) ∧
  (∀ s b0 b1 rest, s.rx = b0 :: b1 :: rest → b0 ∈ [0x00#8, 0x80#8, 0x01#8, 0x02#8, 0x03#8] →
    refParseFrame s = refParseFrame { s with pend := none })

/-- R136: past steps 2 to 6 the length is decoded first (NeedMore and Bad end the sequence), then a control frame is
rejected when its decoded length exceeds 125; `L = 125` and any other frame pass (in steps 1 to 9, `refParseFrame`,
tied to the machine by DecMatchesPseudocode). -/
def Obligations.ControlPayloadTooLongRaises : Prop :=
  ∀ s b0 b1 rest t, s.rx = b0 :: b1 :: rest → HeaderAllowed b0 t s → s.fault = none →
    (decodeLength s.cfg.highLen s.rx = .needMore → exec .dec s = decIncomplete s) ∧
    (∀ k, decodeLength s.cfg.highLen s.rx = .bad k → exec .dec s = decError k s) ∧
    (∀ h m L, decodeLength s.cfg.highLen s.rx = .len h m L →
      (isControl t = true → 125 < L → exec .dec s = decError .controlFramePayloadTooLong s) ∧
      (isControl t = false ∨ L ≤ 125 → refParseFrame s ≠ .bad .controlFramePayloadTooLong))

/-- R137 and R138: from the header alone, a total above MAXFS raises TooLong and consumes nothing; a total within MAXFS
that is not wholly buffered answers Incomplete and consumes nothing. -/
def Obligations.TooLongOrIncomplete : Prop :=
  ∀ s b0 b1 rest t h m L, s.rx = b0 :: b1 :: rest → HeaderAllowed b0 t s → s.fault = none →
    decodeLength s.cfg.highLen s.rx = .len h m L → (isControl t = true → L ≤ 125) →
    (s.cfg.maxFs < h + keyBytes m + L → exec .dec s = decError .tooLong s) ∧
    (h + keyBytes m + L ≤ s.cfg.maxFs → s.rx.length < h + keyBytes m + L → exec .dec s = decIncomplete s)

/-- R93: an extended length field that is not buffered gives NeedMore, and the enclosing DEC Incomplete with the block
unchanged, before any check that needs the length. -/
def Obligations.IncompleteExtendedLength : Prop :=
  ∀ s b0 b1 rest, s.rx = b0 :: b1 :: rest →
    ((len7Of b1 = 126#7 ∧ s.rx.length < 4) ∨ (len7Of b1 = 127#7 ∧ s.rx.length < 10)) →
    decodeLength s.cfg.highLen s.rx = .needMore ∧
    (∀ t, HeaderAllowed b0 t s → s.fault = none → exec .dec s = decIncomplete s)

/-! ## Frames -/

/-- R114, R115, R116 (the spec's D24): a control frame at the cursor is returned as a message at once, in either state
of the reassembler, and has no other effect than its consumption; fed on its own, the reassembler answers a
control frame with `more` by FragmentedControlFrame. -/
def Obligations.ControlFramesAreMessages : Prop :=
  (∀ m h L s, s.cfg.finPolicy = false → s.fault = none → L ≤ 125 →
    (FrameHere 0x01#8 m h L s → exec .dec s = decMessage .close (payload m h L s) (consumed m h L s)) ∧
    (FrameHere 0x02#8 m h L s → exec .dec s = decMessage .ping (payload m h L s) (consumed m h L s)) ∧
    (FrameHere 0x03#8 m h L s → exec .dec s = decMessage .pong (payload m h L s) (consumed m h L s))) ∧
  (∀ p s, reasmClose p true s = .bad .fragmentedControlFrame s ∧ reasmClose p false s = .emit .close p s ∧
    reasmPing p true s = .bad .fragmentedControlFrame s ∧ reasmPing p false s = .emit .ping p s ∧
    reasmPong p true s = .bad .fragmentedControlFrame s ∧ reasmPong p false s = .emit .pong p s)

/-- R112: a Text frame at the cursor while Idle. A single frame is a message when its payload is valid UTF-8 and
otherwise raises InvalidPayloadEncoding with the frame consumed; a first fragment is not validated, opens the message
(within ACC_CAP, R118) and DEC goes on with the next frame. While a message is pending the reassembler, fed on its
own, answers DataFrameInsteadContinuation. It holds for every `utf8_valid` the host supplies (R9). -/
def Obligations.TextFrame : Prop :=
  (∀ m h L s, s.cfg.finPolicy = false → s.fault = none → s.pend = none →
    (FrameHere 0x04#8 m h L s → utf8Valid s.cfg.utf8 (payload m h L s) = true →
      exec .dec s = decMessage .text (payload m h L s) (consumed m h L s)) ∧
    (FrameHere 0x04#8 m h L s → utf8Valid s.cfg.utf8 (payload m h L s) = false →
      exec .dec s = decError .invalidPayloadEncoding (consumed m h L s)) ∧
    (FrameHere 0x84#8 m h L s → fitsCap s.cfg.accCap (payload m h L s).length = true →
      exec .dec s = exec .dec (setFrag (some .text) (some (payload m h L s)) (consumed m h L s)))) ∧
  (∀ p more s, s.pend.isSome = true → reasmText p more s = .bad .dataFrameInsteadContinuation s)

/-- R113: a Binary frame at the cursor while Idle; its payload is never examined. -/
def Obligations.BinaryFrame : Prop :=
  (∀ m h L s, s.cfg.finPolicy = false → s.fault = none → s.pend = none →
    (FrameHere 0x05#8 m h L s → exec .dec s = decMessage .binary (payload m h L s) (consumed m h L s)) ∧
    (FrameHere 0x85#8 m h L s → fitsCap s.cfg.accCap (payload m h L s).length = true →
      exec .dec s = exec .dec (setFrag (some .binary) (some (payload m h L s)) (consumed m h L s)))) ∧
  (∀ p more s, s.pend.isSome = true → reasmBinary p more s = .bad .dataFrameInsteadContinuation s)

/-- R111: a Continuation frame at the cursor. While Idle it is consumed and raises UnexpectedContinuationFrame. While
Accumulating it appends (within ACC_CAP, R118); with `more` DEC goes on with the next frame; the terminating frame
emits the pending type with the whole buffer and returns to Idle, or, for a Text message that is not valid UTF-8 as
a whole, raises InvalidPayloadEncoding with `pend` and the appended `acc` kept. A partly buffered one answers
Incomplete, whatever the state. It holds for every `utf8_valid` the host supplies (R9). -/
def Obligations.ContinuationFrame : Prop :=
  (∀ m h L s, s.cfg.finPolicy = false → s.fault = none →
    (FrameHere 0x00#8 m h L s ∨ FrameHere 0x80#8 m h L s → s.pend = none →
      exec .dec s = decError .unexpectedContinuationFrame (consumed m h L s)) ∧
    (∀ t a, s.pend = some t → s.acc = some a → fitsCap s.cfg.accCap (a ++ payload m h L s).length = true →
      (FrameHere 0x80#8 m h L s →
        exec .dec s = exec .dec (setFrag (some t) (some (a ++ payload m h L s)) (consumed m h L s))) ∧
      (FrameHere 0x00#8 m h L s → t = .binary ∨ utf8Valid s.cfg.utf8 (a ++ payload m h L s) = true →
        exec .dec s = decMessage (dataFrameType t) (a ++ payload m h L s) (setFrag none none (consumed m h L s))) ∧
      (FrameHere 0x00#8 m h L s → t = .text → utf8Valid s.cfg.utf8 (a ++ payload m h L s) = false →
        exec .dec s = decError .invalidPayloadEncoding
          (setFrag (some .text) (some (a ++ payload m h L s)) (consumed m h L s))))) ∧
  (∀ s b0 b1 rest m h L, s.rx = b0 :: b1 :: rest → b0 = 0x00#8 ∨ b0 = 0x80#8 → s.fault = none →
    decodeLength s.cfg.highLen s.rx = .len h m L → h + keyBytes m + L ≤ s.cfg.maxFs →
    s.rx.length < h + keyBytes m + L → exec .dec s = decIncomplete s)

/-- R118 (the spec's D16): with a finite ACC_CAP a creation or an append that would exceed it raises AccOverflow, the
frame consumed, `pend` and `acc` kept; with an unbounded one no operation raises it. -/
def Obligations.AccOverflowRaises : Prop :=
  (∀ m h L s c, s.cfg.finPolicy = false → s.fault = none → s.cfg.accCap = some c →
    (FrameHere 0x84#8 m h L s ∨ FrameHere 0x85#8 m h L s → s.pend = none → c < (payload m h L s).length →
      exec .dec s = decError .accOverflow (consumed m h L s)) ∧
    (∀ t a, FrameHere 0x00#8 m h L s ∨ FrameHere 0x80#8 m h L s → s.pend = some t → s.acc = some a →
      c < (a ++ payload m h L s).length → exec .dec s = decError .accOverflow (consumed m h L s))) ∧
  (∀ i s t, s.cfg.accCap = none → s.fault ≠ some .accOverflow → exec i s = .next t → t.fault ≠ some .accOverflow)

/-- The six frame rows complete: a buffered frame that ends a message gives that message, whatever follows it in `rx`
(R111 to R116; a frame as an instruction of its own is log 9). -/
def Obligations.FrameRowsComplete : Prop :=
  ∀ m l h L s, s.cfg.finPolicy = false → s.fault = none → Buffered m l h L s →
    (L ≤ 125 →
      exec (.frameClose false m l) s = decMessage .close (payload m h L s) (consumed m h L s) ∧
      exec (.framePing false m l) s = decMessage .ping (payload m h L s) (consumed m h L s) ∧
      exec (.framePong false m l) s = decMessage .pong (payload m h L s) (consumed m h L s)) ∧
    (s.pend = none → utf8Valid s.cfg.utf8 (payload m h L s) = true →
      exec (.frameText false m l) s = decMessage .text (payload m h L s) (consumed m h L s)) ∧
    (s.pend = none →
      exec (.frameBinary false m l) s = decMessage .binary (payload m h L s) (consumed m h L s)) ∧
    (∀ t a, s.pend = some t → s.acc = some a → fitsCap s.cfg.accCap (a ++ payload m h L s).length = true →
      t = .binary ∨ utf8Valid s.cfg.utf8 (a ++ payload m h L s) = true →
      exec (.frameCont false m l) s =
        decMessage (dataFrameType t) (a ++ payload m h L s) (setFrag none none (consumed m h L s)))

/-! ## Length codec -/

/-- R89, R90, R91, R92: DecodeLength on a buffer, byte by byte. -/
def Obligations.LengthDecoding : Prop :=
  ∀ policy (b0 b1 : Byte) rest,
    ((len7Of b1).toNat ≤ 125 →
      decodeLength policy (b0 :: b1 :: rest) = .len 2 (maskedOf b1) (len7Of b1).toNat) ∧
    (∀ x y more, len7Of b1 = 126#7 → rest = x :: y :: more →
      decodeLength policy (b0 :: b1 :: rest) = .len 4 (maskedOf b1) (x.toNat * 256 + y.toNat)) ∧
    (∀ h0 h1 h2 h3 l0 l1 l2 l3 more, len7Of b1 = 127#7 →
      rest = h0 :: h1 :: h2 :: h3 :: l0 :: l1 :: l2 :: l3 :: more →
      (policy = .truncate ∨ (h0 = 0#8 ∧ h1 = 0#8 ∧ h2 = 0#8 ∧ h3 = 0#8) →
        decodeLength policy (b0 :: b1 :: rest) = .len 10 (maskedOf b1)
          (l0.toNat * 16777216 + l1.toNat * 65536 + l2.toNat * 256 + l3.toNat)) ∧
      (policy = .reject → ¬ (h0 = 0#8 ∧ h1 = 0#8 ∧ h2 = 0#8 ∧ h3 = 0#8) →
        decodeLength policy (b0 :: b1 :: rest) = .bad .lengthRangeUnsupported))

/-- The three LEN rows complete: each answers its length, NeedMore or Bad from the bytes of the buffer and changes
nothing of the block; when byte 1 of the buffer selects the row, that is what DecodeLength answers (R89 to R93; as
instructions of their own: log 11). -/
def Obligations.LengthRowsComplete : Prop :=
  (∀ m l s, l.toNat ≤ 125 → exec (.len7 m l) s = .next (respond (.length (.len 2 m l.toNat)) s)) ∧
  (∀ m s a b x y rest, s.rx = a :: b :: x :: y :: rest →
    exec (.len16 m) s = .next (respond (.length (.len 4 m (x.toNat * 256 + y.toNat))) s)) ∧
  (∀ m s a b h0 h1 h2 h3 l0 l1 l2 l3 rest, s.rx = a :: b :: h0 :: h1 :: h2 :: h3 :: l0 :: l1 :: l2 :: l3 :: rest →
    s.cfg.highLen = .truncate → exec (.len64 m) s = .next (respond (.length (.len 10 m
      (l0.toNat * 16777216 + l1.toNat * 65536 + l2.toNat * 256 + l3.toNat))) s)) ∧
  (∀ m s, s.rx.length < 4 → exec (.len16 m) s = .next (respond (.length .needMore) s)) ∧
  (∀ m s, s.rx.length < 10 → exec (.len64 m) s = .next (respond (.length .needMore) s)) ∧
  (∀ s b0 b1 rest, s.rx = b0 :: b1 :: rest →
    exec (decodeLen b1) s = .next (respond (.length (decodeLength s.cfg.highLen s.rx)) s))

/-- R85, R86, R87: the three forms of EncodeLength, the extended field big-endian. -/
def Obligations.EncodeLengthForms : Prop :=
  ∀ n mv,
    (n ≤ 125 → encodeLength n mv = some [BitVec.ofNat 8 n ||| mv]) ∧
    (126 ≤ n → n < 65536 → ∃ hi lo : Byte, encodeLength n mv = some [126#8 ||| mv, hi, lo] ∧
      hi.toNat * 256 + lo.toNat = n) ∧
    (65536 ≤ n → n < 4294967296 → ∃ a b c d : Byte,
      encodeLength n mv = some [127#8 ||| mv, 0#8, 0#8, 0#8, 0#8, a, b, c, d] ∧
      a.toNat * 16777216 + b.toNat * 65536 + c.toNat * 256 + d.toNat = n)

/-- R88 (the spec's D6): a length of `2^32` or more is not encodable and an encode operation with such a payload is
refused. -/
def Obligations.HugePayloadRefused : Prop :=
  ∀ p : List Byte, 4294967296 ≤ p.length → ∀ mv e k s,
    encodeLength p.length mv = none ∧
    exec (.encClose p e k) s = .refused .encPayloadNotEncodable ∧
    exec (.encPing p e k) s = .refused .encPayloadNotEncodable ∧
    exec (.encPong p e k) s = .refused .encPayloadNotEncodable ∧
    exec (.encText p e k) s = .refused .encPayloadNotEncodable ∧
    exec (.encBinary p e k) s = .refused .encPayloadNotEncodable

/-- The model's choice (log 13): an unsupported type with a payload of `2^32` bytes or more is refused too. -/
def Obligations.HugeUnsupportedRefused : Prop :=
  ∀ p : List Byte, 4294967296 ≤ p.length → ∀ e k s,
    exec (.encIllegal0 p e k) s = .refused .encPayloadNotEncodable ∧
    (∀ x, exec (.encIllegal6to7 x p e k) s = .refused .encPayloadNotEncodable) ∧
    (∀ x, exec (.encIllegal8to15 x p e k) s = .refused .encPayloadNotEncodable)

/-- DecodeLength gives back every length EncodeLength wrote, under either policy, whatever follows (R94). -/
def Obligations.DecodeLengthOfEncodeLength : Prop :=
  ∀ n masked policy b0 enc rest, encodeLength n (maskValue masked) = some enc →
    decodeLength policy (b0 :: (enc ++ rest)) = .len (1 + enc.length) masked n

/-! ## Masking engine and UTF-8 -/

/-- R100: byte `i` of Mask(data, key) is `data[i] ^ key[i mod 4]`, and the length is kept. -/
def Obligations.MaskIsXorWithKey : Prop :=
  ∀ (data : List Byte) (k : Key),
    (mask data k).length = data.length ∧
    ∀ i b, data[i]? = some b → (mask data k)[i]? = some (b ^^^ [k.k0, k.k1, k.k2, k.k3].getD (i % 4) 0#8)

/-- R103: the payload delivered. Masked, byte `i` is `rx[h+4+i] ^ rx[h + (i mod 4)]`; unmasked it is `rx[h+i]`. -/
def Obligations.PayloadExtraction : Prop :=
  ∀ (rx : List Byte) h L,
    (h + L ≤ rx.length → (payloadAt rx h false L).length = L ∧
      ∀ i b, i < L → rx[h + i]? = some b → (payloadAt rx h false L)[i]? = some b) ∧
    (h + 4 + L ≤ rx.length → (payloadAt rx h true L).length = L ∧
      ∀ i b k, i < L → rx[h + 4 + i]? = some b → rx[h + i % 4]? = some k →
        (payloadAt rx h true L)[i]? = some (b ^^^ k))

/-- R101: Mask is its own inverse. -/
def Obligations.MaskIsSelfInverse : Prop :=
  ∀ (data : List Byte) (k : Key), mask (mask data k) k = data

/-- R117: `utf8_valid` holds exactly of the concatenations of zero or more of the byte patterns of a table, whatever
table the host supplies (R9), and the table of the reset configuration is the nine rows of R117. That a predicate is
written as a table is log 5. -/
def Obligations.Utf8IsConcatenationOfPatterns : Prop :=
  (∀ (rows : List Utf8Row) (bytes : List Byte), utf8Valid (.patterns rows) bytes = true ↔
    ∃ chunks : List (List Byte), bytes = chunks.flatten ∧ ∀ c ∈ chunks, ∃ r ∈ rows, matchesRow r c) ∧
  State.reset.cfg.utf8 = .patterns
    [⟨0x00, 0x7F, []⟩, ⟨0xC2, 0xDF, [(0x80, 0xBF)]⟩, ⟨0xE0, 0xE0, [(0xA0, 0xBF), (0x80, 0xBF)]⟩,
      ⟨0xE1, 0xEC, [(0x80, 0xBF), (0x80, 0xBF)]⟩, ⟨0xED, 0xED, [(0x80, 0x9F), (0x80, 0xBF)]⟩,
      ⟨0xEE, 0xEF, [(0x80, 0xBF), (0x80, 0xBF)]⟩, ⟨0xF0, 0xF0, [(0x90, 0xBF), (0x80, 0xBF), (0x80, 0xBF)]⟩,
      ⟨0xF1, 0xF3, [(0x80, 0xBF), (0x80, 0xBF), (0x80, 0xBF)]⟩, ⟨0xF4, 0xF4, [(0x80, 0x8F), (0x80, 0xBF), (0x80, 0xBF)]⟩]

/-! ## Encoder -/

/-- R151 to R155: the five encode operations, on every encodable payload, whatever the decoder's state: byte 0, the
length field, the key and the masked payload or the plain payload, on the transmit stream. -/
def Obligations.EncodeOperations : Prop :=
  ∀ p e k s, p.length < 4294967296 → s.cfg.finPolicy = false →
    ∃ len, encodeLength p.length (if e then 0x80#8 else 0x00#8) = some len ∧
      exec (.encText p e k) s = .next (respond (.enc (.frame (0x04#8 :: (len ++ wireBody p e k))))
        (emitTx (0x04#8 :: (len ++ wireBody p e k)) s)) ∧
      exec (.encBinary p e k) s = .next (respond (.enc (.frame (0x05#8 :: (len ++ wireBody p e k))))
        (emitTx (0x05#8 :: (len ++ wireBody p e k)) s)) ∧
      exec (.encClose p e k) s = .next (respond (.enc (.frame (0x01#8 :: (len ++ wireBody p e k))))
        (emitTx (0x01#8 :: (len ++ wireBody p e k)) s)) ∧
      exec (.encPing p e k) s = .next (respond (.enc (.frame (0x02#8 :: (len ++ wireBody p e k))))
        (emitTx (0x02#8 :: (len ++ wireBody p e k)) s)) ∧
      exec (.encPong p e k) s = .next (respond (.enc (.frame (0x03#8 :: (len ++ wireBody p e k))))
        (emitTx (0x03#8 :: (len ++ wireBody p e k)) s))

/-- R156: the other types answer Error(UnknownFrameType), emit nothing and change nothing of the block. -/
def Obligations.UnsupportedTypes : Prop :=
  ∀ p e k s, p.length < 4294967296 →
    exec (.encIllegal0 p e k) s = .next (respond (.enc (.error .unknownFrameType)) s) ∧
    (∀ x, exec (.encIllegal6to7 x p e k) s = .next (respond (.enc (.error .unknownFrameType)) s)) ∧
    (∀ x, exec (.encIllegal8to15 x p e k) s = .next (respond (.enc (.error .unknownFrameType)) s))

/-- The emitted frame has `h + 4*mask_en + len(payload)` bytes, with the header lengths of R160 (R150). -/
def Obligations.EncoderOutputLength : Prop :=
  ∀ i p e k s t, i ∈ [Instr.encClose p e k, .encPing p e k, .encPong p e k, .encText p e k, .encBinary p e k] →
    exec i s = .next t →
    ∃ bytes, t.tx = s.tx ++ bytes ∧ t.out = s.out ++ [.enc (.frame bytes)] ∧
      bytes.length = (if p.length ≤ 125 then 2 else if p.length ≤ 65535 then 4 else 10)
        + (if e then 4 else 0) + p.length

/-- R19 (the spec's D8): an ENC reads only its own inputs and FIN_POLICY and writes none of the decoder's state; two
states with the same FIN_POLICY give the same bytes and the same response. -/
def Obligations.EncoderIsPure : Prop :=
  ∀ i s s' t, encodeSide i = true → s.cfg.finPolicy = s'.cfg.finPolicy → exec i s = .next t →
    ∃ bytes r, t = { s with ops := s.ops.tail, tx := s.tx ++ bytes, out := s.out ++ [r] } ∧
      exec i s' = .next { s' with ops := s'.ops.tail, tx := s'.tx ++ bytes, out := s'.out ++ [r] }

/-- The round trip (R159): what ENC emits, pushed into an idle decoder, DEC returns as the same message, masked or not,
and the buffer is empty again. -/
def Obligations.EncodeThenDecode : Prop :=
  ∀ i ty p e k s t, (i, ty) ∈ [(Instr.encClose p e k, FrameType.close), (.encPing p e k, .ping),
      (.encPong p e k, .pong), (.encText p e k, .text), (.encBinary p e k, .binary)] →
    exec i s = .next t → s.cfg.finPolicy = false →
    ∃ bytes, t.out = s.out ++ [.enc (.frame bytes)] ∧
      ∀ d : State, d.fault = none → d.pend = none → d.rx = [] → d.cfg.finPolicy = false → d.cfg.rxCap = none →
        bytes.length ≤ d.cfg.maxFs → (isControl ty = true → p.length ≤ 125) →
        (ty = .text → utf8Valid d.cfg.utf8 p = true) →
        ∃ d1 d2, exec (.rxPush bytes) d = .next d1 ∧ exec .dec d1 = .next d2 ∧
          d2.out = d.out ++ [.pushAccepted, .dec (.message ty.opcode p true)] ∧ d2.rx = [] ∧ d2.pend = none ∧
          d2.acc = d.acc ∧ d2.fault = none

/-! ## RX.PUSH and FRAG -/

/-- R142 (the spec's D16, D20): RX.PUSH appends as a whole and touches nothing else, whether or not `fault` is set; with
a finite RXBUF_CAP a push that does not fit is refused as a whole; with an unbounded one none is. -/
def Obligations.PushAppendsOrIsRefused : Prop :=
  ∀ bytes s,
    (s.cfg.rxCap = none →
      exec (.rxPush bytes) s = .next (respond .pushAccepted { s with rx := s.rx ++ bytes })) ∧
    (∀ c, s.cfg.rxCap = some c →
      (s.rx.length + bytes.length ≤ c →
        exec (.rxPush bytes) s = .next (respond .pushAccepted { s with rx := s.rx ++ bytes })) ∧
      (c < s.rx.length + bytes.length → exec (.rxPush bytes) s = .next (respond .pushRefused s)))

/-- FRAG expands to `T+more p0`, `CONT+more p1`, ..., `CONT pn` (R66) and the bench pushes the expansion (log 12). -/
def Obligations.FragExpandsAndPushes : Prop :=
  ∀ t p0 mid pn s, (Instr.frag t (p0 :: (mid ++ [pn]))).wellFormed = true → s.cfg.finPolicy = false →
    exec (.frag t (p0 :: (mid ++ [pn]))) s =
      .next (pushBytes (fragFrame true (dataFrameType t).opcode p0
        ++ (mid.map (fragFrame true 0#4)).flatten ++ fragFrame false 0#4 pn) s)

/-- The fragmentation pattern: an idle decoder given FRAG(T, p0, ..., pn) returns ONE message of type T with the
payloads joined, each fragment masked or not on its own, and is idle and empty again (R66, R105, R111 to R113). -/
def Obligations.FragDecodesToOneMessage : Prop :=
  ∀ t parts s, (Instr.frag t parts).wellFormed = true → s.cfg.finPolicy = false → s.cfg.rxCap = none →
    s.cfg.accCap = none → (∀ p ∈ parts, p.payload.length + 14 ≤ s.cfg.maxFs) →
    s.fault = none → s.pend = none → s.acc = none → s.rx = [] →
    (t = .text → utf8Valid s.cfg.utf8 (parts.map FragPart.payload).flatten = true) →
    ∃ s1 s2, exec (.frag t parts) s = .next s1 ∧ exec .dec s1 = .next s2 ∧
      s2.out = s.out ++ [.pushAccepted,
        .dec (.message (dataFrameType t).opcode (parts.map FragPart.payload).flatten true)] ∧
      s2.rx = [] ∧ s2.pend = none ∧ s2.acc = none ∧ s2.fault = none

/-! ## What each row leaves unchanged -/

/-- The frame of the rows DEC executes: configuration and transmit stream are unchanged, and `rx` only loses bytes from
its front (R15, R37). That one DEC result is added (R145 says it of DEC) and one request retired also by a frame row of
its own, an absorbed one included, is the model's choice: it runs the rest of DEC's loop (log 9). That requests, results
and the transmit stream stand in the state is log 6 and log 7. -/
def Obligations.DecodeSideFrame : Prop :=
  ∀ i s t, decodeSide i = true → exec i s = .next t →
    t.cfg = s.cfg ∧ t.tx = s.tx ∧ t.ops = s.ops.tail ∧ (∃ r, t.out = s.out ++ [.dec r]) ∧ ∃ n, t.rx = s.rx.drop n

/-- Who writes `rx` (R10): RX.PUSH (and the bench's FRAG, log 12) append or leave it, DEC and the frames remove from the
front, RESET empties it; the ENC and LEN rows never touch it. A frame row of its own runs the rest of DEC's loop (log
9), so it removes every frame that loop consumes. -/
def Obligations.WhoWritesRx : Prop :=
  ∀ i s t, exec i s = .next t →
    (lengthRow i = true ∨ encodeSide i = true → t.rx = s.rx) ∧
    (∀ bytes, i = .rxPush bytes → t.rx = s.rx ++ bytes ∨ t.rx = s.rx) ∧
    (∀ ty parts, i = .frag ty parts → ∃ bytes, t.rx = s.rx ++ bytes) ∧
    (decodeSide i = true → ∃ n, t.rx = s.rx.drop n) ∧
    (i = .reset → t.rx = [])

/-- The rows that are neither DEC's nor RESET leave the fragmentation state, the latch and the configuration
unchanged (R110: "nothing else moves the machine"). -/
def Obligations.OnlyDecodeAndResetMoveTheReassembler : Prop :=
  ∀ i s t, decodeSide i = false → i ≠ .reset → exec i s = .next t →
    t.pend = s.pend ∧ t.acc = s.acc ∧ t.fault = s.fault ∧ t.cfg = s.cfg

/-! ## The stream -/

/-- A DEC that answered Incomplete, repeated with no push in between, answers Incomplete again and changes nothing of
the block (R22, R182). -/
def Obligations.IncompleteIsStable : Prop :=
  ∀ s t, exec .dec s = .next t → t.out = s.out ++ [.dec .incomplete] →
    exec .dec t = .next (respond (.dec .incomplete) t)

/-- R144: a proper prefix of a serialised frame the decoder would accept answers Incomplete and leaves every byte. -/
def Obligations.ProperPrefixIsIncomplete : Prop :=
  ∀ ty more mk p bytes n s b0, serialize false more ty.opcode mk p = some bytes → s.cfg.finPolicy = false →
    bytes.head? = some b0 → HeaderAllowed b0 ty s → (isControl ty = true → p.length ≤ 125) → bytes.length ≤ s.cfg.maxFs →
    n < bytes.length → s.rx = bytes.take n → s.fault = none → exec .dec s = decIncomplete s

/-- Bytes pushed later do not change a verdict already reached on the header and the buffered frame (R45, R183: a frame
can be Incomplete now and an error later, never the reverse). -/
def Obligations.ParseVerdictIsStable : Prop :=
  ∀ s bytes, refParseFrame s ≠ .needMore → refParseFrame (appendRx bytes s) = refParseFrame s

/-- How the stream is cut into pushes does not matter (R147): a DEC that answered Incomplete may be left out, the next
DEC gives the same result and leaves the same block. -/
def Obligations.ChunkingDoesNotMatter : Prop :=
  ∀ s t bytes, s.coherent = true → exec .dec s = .next t → t.out = s.out ++ [.dec .incomplete] →
    ∃ u v r, exec .dec (appendRx bytes s) = .next u ∧ exec .dec (appendRx bytes t) = .next v ∧
      u.sameBlock v ∧ u.out = s.out ++ [r] ∧ v.out = t.out ++ [r]

/-- DEC depends on the block and the configuration alone (R147): states that differ only in pending requests, transmit
stream and past results give the same result and the same block. -/
def Obligations.DecDependsOnTheBlockOnly : Prop :=
  ∀ s s' t, s.sameBlock s' → exec .dec s = .next t →
    ∃ t' r, exec .dec s' = .next t' ∧ t.sameBlock t' ∧ t.out = s.out ++ [r] ∧ t'.out = s'.out ++ [r]

/-- Every message returned was checked: `validated` is 1, its type code is the opcode of a type other than Continuation,
one of 1 to 5, a control message has at most 125 bytes, and the `utf8_valid` the host supplies holds of a Text
message (R78, R117, R119, R136). -/
def Obligations.ReturnedMessagesAreChecked : Prop :=
  ∀ i s t code p v, exec i s = .next t → t.out = s.out ++ [.dec (.message code p v)] →
    v = true ∧ 1 ≤ code.toNat ∧ code.toNat ≤ 5 ∧ ∃ ty : FrameType, code = ty.opcode ∧ ty ≠ .continuation ∧
      (isControl ty = true → p.length ≤ 125) ∧ (ty = .text → utf8Valid s.cfg.utf8 p = true)

/-! ## The status view -/

/-- R18 (the spec's D18) with the codes of R170: STATUS as a function of the state. -/
def Obligations.StatusView : Prop :=
  ∀ s, (s.fault = none → (status s).faultCode = 0) ∧
    (∀ k, s.fault = some k → 1 ≤ (status s).faultCode ∧ (status s).faultCode ≤ 11 ∧
      [ErrKind.unknownFrameType, .unknownOpcode, .reservedBitUsed, .fragmentedControlFrame,
        .controlFramePayloadTooLong, .dataFrameInsteadContinuation, .unexpectedContinuationFrame,
        .invalidPayloadEncoding, .tooLong, .lengthRangeUnsupported, .accOverflow][(status s).faultCode - 1]? = some k) ∧
    ((status s).fragActive = true ↔ s.pend ≠ none) ∧
    (s.pend = none → (status s).pendType = 0#4) ∧ (s.pend = some .text → (status s).pendType = 4#4) ∧
    (s.pend = some .binary → (status s).pendType = 5#4) ∧
    (status s).rxCount = s.rx.length ∧ (s.acc = none → (status s).accCount = 0) ∧
    (∀ a, s.acc = some a → (status s).accCount = a.length)
end

