-- ==== Sys2Proof/Laws/State.lean ====
section
/-! SUPPORT. One lemma per field per update of the state, so that no later proof unfolds a record update. -/

namespace Sys2Proof.Machine

@[simp] theorem consume_cfg (n : Nat) (s : State) : (consume n s).cfg = s.cfg := rfl
@[simp] theorem consume_rx (n : Nat) (s : State) : (consume n s).rx = s.rx.drop n := rfl
@[simp] theorem consume_pend (n : Nat) (s : State) : (consume n s).pend = s.pend := rfl
@[simp] theorem consume_acc (n : Nat) (s : State) : (consume n s).acc = s.acc := rfl
@[simp] theorem consume_fault (n : Nat) (s : State) : (consume n s).fault = s.fault := rfl
@[simp] theorem consume_ops (n : Nat) (s : State) : (consume n s).ops = s.ops := rfl
@[simp] theorem consume_tx (n : Nat) (s : State) : (consume n s).tx = s.tx := rfl
@[simp] theorem consume_out (n : Nat) (s : State) : (consume n s).out = s.out := rfl

@[simp] theorem appendRx_cfg (bytes : List Byte) (s : State) : (appendRx bytes s).cfg = s.cfg := rfl
@[simp] theorem appendRx_rx (bytes : List Byte) (s : State) : (appendRx bytes s).rx = s.rx ++ bytes := rfl
@[simp] theorem appendRx_pend (bytes : List Byte) (s : State) : (appendRx bytes s).pend = s.pend := rfl
@[simp] theorem appendRx_acc (bytes : List Byte) (s : State) : (appendRx bytes s).acc = s.acc := rfl
@[simp] theorem appendRx_fault (bytes : List Byte) (s : State) : (appendRx bytes s).fault = s.fault := rfl
@[simp] theorem appendRx_ops (bytes : List Byte) (s : State) : (appendRx bytes s).ops = s.ops := rfl
@[simp] theorem appendRx_tx (bytes : List Byte) (s : State) : (appendRx bytes s).tx = s.tx := rfl
@[simp] theorem appendRx_out (bytes : List Byte) (s : State) : (appendRx bytes s).out = s.out := rfl

@[simp] theorem emitTx_cfg (bytes : List Byte) (s : State) : (emitTx bytes s).cfg = s.cfg := rfl
@[simp] theorem emitTx_rx (bytes : List Byte) (s : State) : (emitTx bytes s).rx = s.rx := rfl
@[simp] theorem emitTx_pend (bytes : List Byte) (s : State) : (emitTx bytes s).pend = s.pend := rfl
@[simp] theorem emitTx_acc (bytes : List Byte) (s : State) : (emitTx bytes s).acc = s.acc := rfl
@[simp] theorem emitTx_fault (bytes : List Byte) (s : State) : (emitTx bytes s).fault = s.fault := rfl
@[simp] theorem emitTx_ops (bytes : List Byte) (s : State) : (emitTx bytes s).ops = s.ops := rfl
@[simp] theorem emitTx_tx (bytes : List Byte) (s : State) : (emitTx bytes s).tx = s.tx ++ bytes := rfl
@[simp] theorem emitTx_out (bytes : List Byte) (s : State) : (emitTx bytes s).out = s.out := rfl

@[simp] theorem setFrag_cfg (p : Option DataType) (a : Option (List Byte)) (s : State) : (setFrag p a s).cfg = s.cfg := rfl
@[simp] theorem setFrag_rx (p : Option DataType) (a : Option (List Byte)) (s : State) : (setFrag p a s).rx = s.rx := rfl
@[simp] theorem setFrag_pend (p : Option DataType) (a : Option (List Byte)) (s : State) : (setFrag p a s).pend = p := rfl
@[simp] theorem setFrag_acc (p : Option DataType) (a : Option (List Byte)) (s : State) : (setFrag p a s).acc = a := rfl
@[simp] theorem setFrag_fault (p : Option DataType) (a : Option (List Byte)) (s : State) : (setFrag p a s).fault = s.fault := rfl
@[simp] theorem setFrag_ops (p : Option DataType) (a : Option (List Byte)) (s : State) : (setFrag p a s).ops = s.ops := rfl
@[simp] theorem setFrag_tx (p : Option DataType) (a : Option (List Byte)) (s : State) : (setFrag p a s).tx = s.tx := rfl
@[simp] theorem setFrag_out (p : Option DataType) (a : Option (List Byte)) (s : State) : (setFrag p a s).out = s.out := rfl

@[simp] theorem retire_cfg (s : State) : (retire s).cfg = s.cfg := rfl
@[simp] theorem retire_rx (s : State) : (retire s).rx = s.rx := rfl
@[simp] theorem retire_pend (s : State) : (retire s).pend = s.pend := rfl
@[simp] theorem retire_acc (s : State) : (retire s).acc = s.acc := rfl
@[simp] theorem retire_fault (s : State) : (retire s).fault = s.fault := rfl
@[simp] theorem retire_ops (s : State) : (retire s).ops = s.ops.tail := rfl
@[simp] theorem retire_tx (s : State) : (retire s).tx = s.tx := rfl
@[simp] theorem retire_out (s : State) : (retire s).out = s.out := rfl

@[simp] theorem respond_cfg (r : Response) (s : State) : (respond r s).cfg = s.cfg := rfl
@[simp] theorem respond_rx (r : Response) (s : State) : (respond r s).rx = s.rx := rfl
@[simp] theorem respond_pend (r : Response) (s : State) : (respond r s).pend = s.pend := rfl
@[simp] theorem respond_acc (r : Response) (s : State) : (respond r s).acc = s.acc := rfl
@[simp] theorem respond_fault (r : Response) (s : State) : (respond r s).fault = s.fault := rfl
@[simp] theorem respond_ops (r : Response) (s : State) : (respond r s).ops = s.ops.tail := rfl
@[simp] theorem respond_tx (r : Response) (s : State) : (respond r s).tx = s.tx := rfl
@[simp] theorem respond_out (r : Response) (s : State) : (respond r s).out = s.out ++ [r] := rfl

@[simp] theorem clearState_cfg (s : State) : (clearState s).cfg = s.cfg := rfl
@[simp] theorem clearState_rx (s : State) : (clearState s).rx = [] := rfl
@[simp] theorem clearState_pend (s : State) : (clearState s).pend = none := rfl
@[simp] theorem clearState_acc (s : State) : (clearState s).acc = none := rfl
@[simp] theorem clearState_fault (s : State) : (clearState s).fault = none := rfl
@[simp] theorem clearState_ops (s : State) : (clearState s).ops = s.ops := rfl
@[simp] theorem clearState_tx (s : State) : (clearState s).tx = s.tx := rfl
@[simp] theorem clearState_out (s : State) : (clearState s).out = s.out := rfl

-- The reset and power-up state, field by field (R20).
@[simp] theorem reset_cfg : State.reset.cfg = Config.default := rfl
@[simp] theorem reset_rx : State.reset.rx = [] := rfl
@[simp] theorem reset_pend : State.reset.pend = none := rfl
@[simp] theorem reset_acc : State.reset.acc = none := rfl
@[simp] theorem reset_fault : State.reset.fault = none := rfl

end Sys2Proof.Machine
end

