-- ==== Sys2Proof/Laws/Ops.lean ====
section
/-! SUPPORT. What each shared operation over the buffers and the operands can do, said once. -/

namespace Sys2Proof.Machine

/-! ## Capacities and pushes -/

@[simp] theorem fitsCap_none (n : Nat) : fitsCap none n = true := rfl

@[simp] theorem fitsCap_some (c n : Nat) : fitsCap (some c) n = decide (n ≤ c) := rfl

theorem fitsCap_mono {cap : Option Nat} {m n : Nat} (h : m ≤ n) (hf : fitsCap cap n = true) :
    fitsCap cap m = true := by
  cases cap with
  | none => rfl
  | some c => simp at hf ⊢; omega

theorem pushBytes_fits {bytes : List Byte} {s : State}
    (h : fitsCap s.cfg.rxCap (s.rx.length + bytes.length) = true) :
    pushBytes bytes s = respond .pushAccepted (appendRx bytes s) := by
  simp [pushBytes, h]

theorem pushBytes_refused {bytes : List Byte} {s : State}
    (h : fitsCap s.cfg.rxCap (s.rx.length + bytes.length) = false) :
    pushBytes bytes s = respond .pushRefused s := by
  simp [pushBytes, h]

/-- A push is accepted whole or refused whole; nothing else. -/
theorem pushBytes_cases (bytes : List Byte) (s : State) :
    (fitsCap s.cfg.rxCap (s.rx.length + bytes.length) = true ∧
      pushBytes bytes s = respond .pushAccepted (appendRx bytes s)) ∨
    (fitsCap s.cfg.rxCap (s.rx.length + bytes.length) = false ∧ pushBytes bytes s = respond .pushRefused s) := by
  cases h : fitsCap s.cfg.rxCap (s.rx.length + bytes.length) with
  | true => exact .inl ⟨rfl, pushBytes_fits h⟩
  | false => exact .inr ⟨rfl, pushBytes_refused h⟩

@[simp] theorem pushBytes_cfg (bytes : List Byte) (s : State) : (pushBytes bytes s).cfg = s.cfg := by
  obtain ⟨_, h⟩ | ⟨_, h⟩ := pushBytes_cases bytes s <;> simp [h]

@[simp] theorem pushBytes_pend (bytes : List Byte) (s : State) : (pushBytes bytes s).pend = s.pend := by
  obtain ⟨_, h⟩ | ⟨_, h⟩ := pushBytes_cases bytes s <;> simp [h]

@[simp] theorem pushBytes_acc (bytes : List Byte) (s : State) : (pushBytes bytes s).acc = s.acc := by
  obtain ⟨_, h⟩ | ⟨_, h⟩ := pushBytes_cases bytes s <;> simp [h]

@[simp] theorem pushBytes_fault (bytes : List Byte) (s : State) : (pushBytes bytes s).fault = s.fault := by
  obtain ⟨_, h⟩ | ⟨_, h⟩ := pushBytes_cases bytes s <;> simp [h]

@[simp] theorem pushBytes_tx (bytes : List Byte) (s : State) : (pushBytes bytes s).tx = s.tx := by
  obtain ⟨_, h⟩ | ⟨_, h⟩ := pushBytes_cases bytes s <;> simp [h]

@[simp] theorem pushBytes_ops (bytes : List Byte) (s : State) : (pushBytes bytes s).ops = s.ops.tail := by
  obtain ⟨_, h⟩ | ⟨_, h⟩ := pushBytes_cases bytes s <;> simp [h]

/-! ## Slices, masks and big-endian fields -/

theorem slice_length_le (bytes : List Byte) (i n : Nat) : (slice bytes i n).length ≤ n := by
  simp [slice]

theorem slice_length {bytes : List Byte} {i n : Nat} (h : i + n ≤ bytes.length) :
    (slice bytes i n).length = n := by
  simp [slice]; omega

@[simp] theorem maskFrom_length (key : Key) (data : List Byte) (i : Nat) :
    (maskFrom key i data).length = data.length := by
  induction data generalizing i with
  | nil => rfl
  | cons b rest ih => simp [maskFrom, ih]

@[simp] theorem mask_length (data : List Byte) (key : Key) : (mask data key).length = data.length :=
  maskFrom_length key data 0

theorem payloadAt_length_le (rx : List Byte) (h : Nat) (masked : Bool) (n : Nat) :
    (payloadAt rx h masked n).length ≤ n := by
  cases masked <;> simp [payloadAt, slice_length_le]

theorem beNat_nil : beNat [] = 0 := rfl

theorem beNat_append_singleton (bytes : List Byte) (b : Byte) : beNat (bytes ++ [b]) = beNat bytes * 256 + b.toNat := by
  simp [beNat]

theorem beNat_lt (bytes : List Byte) : beNat bytes < 256 ^ bytes.length := by
  induction bytes using List.reverseRecOn with
  | nil => simp [beNat]
  | append_singleton rest b ih =>
    rw [beNat_append_singleton]
    have hb := b.isLt
    simp only [List.length_append, List.length_singleton, pow_succ]
    omega

/-! ## The length codec -/

/-- Everything `DecodeLength` can answer: it waits for the extended field, raises LengthRangeUnsupported (only under
Reject), or gives a length below `2^32` behind a header of 2, 4 or 10 bytes (R95). -/
theorem decodeLengthAs_cases (policy : HighLenPolicy) (m : Bool) (l : BitVec 7) (rx : List Byte) :
    decodeLengthAs policy m l rx = .needMore ∨
    (policy = .reject ∧ decodeLengthAs policy m l rx = .bad .lengthRangeUnsupported) ∨
    ∃ h payloadLen, (h = 2 ∨ h = 4 ∨ h = 10) ∧ payloadLen < 4294967296 ∧
      decodeLengthAs policy m l rx = .len h m payloadLen := by
  have hl := l.isLt
  unfold decodeLengthAs lenShort lenWide16 lenWide64
  split
  · exact .inr (.inr ⟨2, l.toNat, by simp, by omega, rfl⟩)
  · split
    · split
      · exact .inl rfl
      · refine .inr (.inr ⟨4, _, by simp, ?_, rfl⟩)
        have := beNat_lt (slice rx 2 2)
        rw [slice_length (by omega)] at this
        omega
    · split
      · exact .inl rfl
      · split
        next h => exact .inr (.inl ⟨h.2, rfl⟩)
        · refine .inr (.inr ⟨10, _, by simp, ?_, rfl⟩)
          have := beNat_lt (slice rx 6 4)
          rw [slice_length (by omega)] at this
          omega

theorem decodeLengthAs_bad {policy : HighLenPolicy} {m : Bool} {l : BitVec 7} {rx : List Byte} {k : ErrKind}
    (h : decodeLengthAs policy m l rx = .bad k) : k = .lengthRangeUnsupported ∧ policy = .reject := by
  obtain h' | ⟨hp, h'⟩ | ⟨_, _, _, _, h'⟩ := decodeLengthAs_cases policy m l rx <;> rw [h'] at h
  · cases h
  · cases h; exact ⟨rfl, hp⟩
  · cases h

theorem decodeLengthAs_len {policy : HighLenPolicy} {m : Bool} {l : BitVec 7} {rx : List Byte} {h n : Nat} {mk : Bool}
    (hd : decodeLengthAs policy m l rx = .len h mk n) :
    mk = m ∧ 2 ≤ h ∧ h ≤ 10 ∧ n < 4294967296 := by
  obtain h' | ⟨_, h'⟩ | ⟨_, _, hh, hn, h'⟩ := decodeLengthAs_cases policy m l rx <;> rw [h'] at hd
  · cases hd
  · cases hd
  · cases hd; exact ⟨rfl, by omega, by omega, hn⟩

/-- `EncodeLength` answers exactly on the encodable lengths (R88). -/
theorem encodeLength_isSome_iff (n : Nat) (mv : Byte) : (encodeLength n mv).isSome = true ↔ n < 4294967296 := by
  unfold encodeLength
  split
  · simp; omega
  · split
    · simp; omega
    · split <;> simp <;> omega

theorem serializable_of_encodable {payload : List Byte} (h : encodableLength payload = true) (mv : Byte) :
    ∃ len, encodeLength payload.length mv = some len :=
  Option.isSome_iff_exists.mp ((encodeLength_isSome_iff _ _).mpr (by simpa [encodableLength] using h))

/-! ## UTF-8 -/

@[simp] theorem utf8Valid_patterns (rows : List Utf8Row) (bytes : List Byte) :
    utf8Valid (.patterns rows) bytes = utf8Run rows [[]] bytes := rfl

@[simp] theorem utf8Valid_other (n : Nat) (bytes : List Byte) :
    utf8Valid (.other n) bytes = Config.utf8Other n bytes := rfl

theorem inRange_iff (b : Byte) (lo hi : Nat) : inRange b lo hi = true ↔ lo ≤ b.toNat ∧ b.toNat ≤ hi := by
  simp [inRange]

/-- One byte inside a pattern takes off its first range; one byte between two patterns starts a row. -/
theorem mem_utf8Step (rows : List Utf8Row) (b : Byte) (want next : List (Nat × Nat)) :
    next ∈ utf8Step rows b want ↔
      (∃ r, want = r :: next ∧ r.1 ≤ b.toNat ∧ b.toNat ≤ r.2) ∨
      (want = [] ∧ ∃ row ∈ rows, row.lo ≤ b.toNat ∧ b.toNat ≤ row.hi ∧ row.tail = next) := by
  cases want with
  | nil => simp [utf8Step, inRange_iff, and_assoc]
  | cons r more =>
    obtain ⟨lo, hi⟩ := r
    have step : utf8Step rows b ((lo, hi) :: more) = if inRange b lo hi then [more] else [] := rfl
    by_cases h : lo ≤ b.toNat ∧ b.toNat ≤ hi
    · rw [step, if_pos ((inRange_iff _ _ _).mpr h)]
      simpa [h] using eq_comm
    · rw [step, if_neg (mt (inRange_iff _ _ _).mp h)]
      simpa using fun _ => not_and.mp h

/-- The alternatives are independent: a run succeeds when one of them does. -/
theorem utf8Run_append (rows : List Utf8Row) (bytes : List Byte) : ∀ us vs : List (List (Nat × Nat)),
    utf8Run rows (us ++ vs) bytes = (utf8Run rows us bytes || utf8Run rows vs bytes) := by
  induction bytes with
  | nil => simp [utf8Run]
  | cons b rest ih => intro us vs; simp [utf8Run, List.flatMap_append, ih]

/-- No alternative left: the bytes are rejected. -/
@[simp] theorem utf8Run_none (rows : List Utf8Row) (bytes : List Byte) : utf8Run rows [] bytes = false := by
  induction bytes with
  | nil => rfl
  | cons b rest ih => simpa [utf8Run] using ih

/-- A run succeeds when one of its alternatives does. -/
theorem utf8Run_iff (rows : List Utf8Row) (bytes : List Byte) (wants : List (List (Nat × Nat))) :
    utf8Run rows wants bytes = true ↔ ∃ want ∈ wants, utf8Run rows [want] bytes = true := by
  induction wants with
  | nil => simp
  | cons w more ih =>
    rw [show w :: more = [w] ++ more from rfl, utf8Run_append, Bool.or_eq_true, ih]
    simp

end Sys2Proof.Machine
end

