-- ==== Sys2Proof/Laws/Decoder.lean ====
section
/-! SUPPORT. What one frame and DEC's loop can do, said once: the inversion lemmas of the parser and the reassembler,
and the induction over the loop. -/

namespace Sys2Proof.Machine

/-! ## Parser -/

/-- What a header that passes every check guarantees (R133 to R138). -/
theorem checkHeader_hdr {t : FrameType} {f m : Bool} {l : BitVec 7} {s : State} {hd : Hdr}
    (h : checkHeader t f m l s = .hdr hd) :
    hd = ⟨hd.h, m, hd.payloadLen, t, moreFlag s.cfg.finPolicy f, frameTotal hd.h m hd.payloadLen⟩ ∧
    ¬ (moreFlag s.cfg.finPolicy f = true ∧ isControl t = true) ∧
    ¬ (isData t = true ∧ s.pend.isSome = true) ∧
    decodeLengthAs s.cfg.highLen m l s.rx = .len hd.h m hd.payloadLen ∧
    (isControl t = true → hd.payloadLen ≤ 125) ∧
    frameTotal hd.h m hd.payloadLen ≤ s.cfg.maxFs ∧ frameTotal hd.h m hd.payloadLen ≤ s.rx.length := by
  unfold checkHeader at h
  split at h
  · cases h
  next hmc =>
  split at h
  · cases h
  next hdp =>
  split at h
  · cases h
  · cases h
  next hh mk n hlen =>
  obtain ⟨rfl, -, -, -⟩ := decodeLengthAs_len hlen
  unfold checkLength at h
  split at h
  · cases h
  next hc =>
  split at h
  · cases h
  split at h
  · cases h
  cases h
  exact ⟨rfl, hmc, hdp, hlen, fun ht => Nat.le_of_not_lt fun h => hc ⟨ht, h⟩, by simp; omega, by simp; omega⟩

/-- A header check raises decode-side kinds only (R170). -/
theorem checkHeader_bad {t : FrameType} {f m : Bool} {l : BitVec 7} {s : State} {k : ErrKind}
    (h : checkHeader t f m l s = .bad k) : ErrKind.decodeSide k = true := by
  unfold checkHeader at h
  split at h
  · cases h; rfl
  split at h
  · cases h; rfl
  split at h
  · cases h
  next k' hlen => cases h; rw [(decodeLengthAs_bad hlen).1]; rfl
  · unfold checkLength at h
    repeat' (split at h)
    all_goals first | cases h; rfl | cases h

/-- Everything one frame can do: wait for more bytes, raise an error with nothing consumed, or be consumed whole and
handed to the reassembler. -/
theorem frameStep_cases (b0 b1 : Byte) (s : State) :
    frameStep b0 b1 s = .done .incomplete s ∨
    (∃ k, ErrKind.decodeSide k = true ∧ frameStep b0 b1 s = raiseError k s) ∨
    ∃ t hd, checkHeader t (highBit b0) (highBit b1) (low7 b1) s = .hdr hd ∧
      frameStep b0 b1 s =
        deliver (refReassemble t (payloadAt s.rx hd.h hd.masked hd.payloadLen) hd.more (consume hd.total s)) := by
  have key : ∀ t, runFrame t (highBit b0) (highBit b1) (low7 b1) (refReassemble t) s = .done .incomplete s ∨
      (∃ k, ErrKind.decodeSide k = true ∧
        runFrame t (highBit b0) (highBit b1) (low7 b1) (refReassemble t) s = raiseError k s) ∨
      ∃ hd, checkHeader t (highBit b0) (highBit b1) (low7 b1) s = .hdr hd ∧
        runFrame t (highBit b0) (highBit b1) (low7 b1) (refReassemble t) s =
          deliver (refReassemble t (payloadAt s.rx hd.h hd.masked hd.payloadLen) hd.more (consume hd.total s)) := by
    intro t
    unfold runFrame step10
    split
    next h => exact .inl rfl
    next k h => exact .inr (.inl ⟨k, checkHeader_bad h, rfl⟩)
    next hd h => exact .inr (.inr ⟨hd, h, rfl⟩)
  unfold frameStep
  split
  case h_7 => exact .inr (.inl ⟨_, rfl, rfl⟩)
  case h_8 => exact .inr (.inl ⟨_, rfl, rfl⟩)
  case h_9 => exact .inr (.inl ⟨_, rfl, rfl⟩)
  case h_10 => exact .inr (.inl ⟨_, rfl, rfl⟩)
  case h_11 => exact .inr (.inl ⟨_, rfl, rfl⟩)
  case h_1 => exact (key .continuation).imp id (Or.imp id fun ⟨hd, h⟩ => ⟨_, hd, h⟩)
  case h_2 => exact (key .close).imp id (Or.imp id fun ⟨hd, h⟩ => ⟨_, hd, h⟩)
  case h_3 => exact (key .ping).imp id (Or.imp id fun ⟨hd, h⟩ => ⟨_, hd, h⟩)
  case h_4 => exact (key .pong).imp id (Or.imp id fun ⟨hd, h⟩ => ⟨_, hd, h⟩)
  case h_5 => exact (key .text).imp id (Or.imp id fun ⟨hd, h⟩ => ⟨_, hd, h⟩)
  case h_6 => exact (key .binary).imp id (Or.imp id fun ⟨hd, h⟩ => ⟨_, hd, h⟩)

/-! ## Reassembler -/

/-- The terminating frame of a Binary message, or of a Text message the host's `utf8_valid` holds of (R111). -/
theorem finishMessage_valid {t : DataType} {whole : List Byte} {s : State}
    (h : t = .binary ∨ utf8Valid s.cfg.utf8 whole = true) :
    finishMessage t whole s = .emit (dataFrameType t) whole (setFrag none none s) := by
  rw [finishMessage, if_neg]
  rintro ⟨rfl, hbad⟩
  simp [hbad] at h

/-- The terminating frame of a Text message `utf8_valid` does not hold of: the appended buffer is kept (R111). -/
theorem finishMessage_invalid {whole : List Byte} {s : State} (h : utf8Valid s.cfg.utf8 whole = false) :
    finishMessage .text whole s = .bad .invalidPayloadEncoding (setFrag (some .text) (some whole) s) := by
  rw [finishMessage, if_pos ⟨rfl, h⟩]

/-- Everything the reassembler can do to the state: nothing, write the fragmentation state, or stop outside R13. It
writes `pend` and `acc` and nothing else (43_reassembler section 1). -/
theorem refReassemble_cases (t : FrameType) (payload : List Byte) (more : Bool) (s : State) :
    (∃ ty p, refReassemble t payload more s = .emit ty p s) ∨
    (∃ ty p, refReassemble t payload more s = .emit ty p (setFrag none none s)) ∨
    (∃ d whole, refReassemble t payload more s = .absorb (setFrag (some d) (some whole) s) ∧
      fitsCap s.cfg.accCap whole.length = true) ∨
    (∃ k, ErrKind.decodeSide k = true ∧ refReassemble t payload more s = .bad k s) ∨
    (∃ whole, refReassemble t payload more s =
        .bad .invalidPayloadEncoding (setFrag (some .text) (some whole) s) ∧
      fitsCap s.cfg.accCap whole.length = true) ∨
    (s.coherent = false ∧ refReassemble t payload more s = .stop .fragIncoherent) := by
  cases t with
  | continuation =>
    simp only [refReassemble, reasmCont]
    split
    · exact .inr (.inr (.inr (.inl ⟨_, rfl, rfl⟩)))
    next d sofar _ _ =>
      unfold appendFragment finishMessage
      split
      next hfit =>
        split
        · exact .inr (.inr (.inl ⟨d, _, rfl, hfit⟩))
        · split
          next hbad => obtain ⟨rfl, -⟩ := hbad; exact .inr (.inr (.inr (.inr (.inl ⟨_, rfl, hfit⟩))))
          · exact .inr (.inl ⟨_, _, rfl⟩)
      · exact .inr (.inr (.inr (.inl ⟨_, rfl, rfl⟩)))
    next hp ha => exact .inr (.inr (.inr (.inr (.inr ⟨by simp [State.coherent, hp, ha], rfl⟩))))
  | close =>
    cases more
    · exact .inl ⟨.close, payload, rfl⟩
    · exact .inr (.inr (.inr (.inl ⟨_, rfl, rfl⟩)))
  | ping =>
    cases more
    · exact .inl ⟨.ping, payload, rfl⟩
    · exact .inr (.inr (.inr (.inl ⟨_, rfl, rfl⟩)))
  | pong =>
    cases more
    · exact .inl ⟨.pong, payload, rfl⟩
    · exact .inr (.inr (.inr (.inl ⟨_, rfl, rfl⟩)))
  | text =>
    simp only [refReassemble, reasmText, startMessage]
    split
    · exact .inr (.inr (.inr (.inl ⟨_, rfl, rfl⟩)))
    · split
      · split
        next hfit => exact .inr (.inr (.inl ⟨_, _, rfl, hfit⟩))
        · exact .inr (.inr (.inr (.inl ⟨_, rfl, rfl⟩)))
      · split
        · exact .inl ⟨_, _, rfl⟩
        · exact .inr (.inr (.inr (.inl ⟨_, rfl, rfl⟩)))
  | binary =>
    simp only [refReassemble, reasmBinary, startMessage]
    split
    · exact .inr (.inr (.inr (.inl ⟨_, rfl, rfl⟩)))
    · split
      · split
        next hfit => exact .inr (.inr (.inl ⟨_, _, rfl, hfit⟩))
        · exact .inr (.inr (.inr (.inl ⟨_, rfl, rfl⟩)))
      · exact .inl ⟨_, _, rfl⟩

/-- What a message the reassembler emits is: never a Continuation, `utf8_valid` of a Text message, and a control message
the frame's own payload (R117, R119, R114 to R116). -/
theorem refReassemble_emit {t ty : FrameType} {payload p : List Byte} {more : Bool} {s s' : State}
    (h : refReassemble t payload more s = .emit ty p s') :
    ty ≠ .continuation ∧ (ty = .text → utf8Valid s.cfg.utf8 p = true) ∧ (isControl ty = true → ty = t ∧ p = payload) := by
  cases t with
  | continuation =>
    simp only [refReassemble, reasmCont, appendFragment, finishMessage] at h
    split at h
    · cases h
    next d sofar _ _ =>
      split at h
      · split at h
        · cases h
        · split at h
          · cases h
          next hok =>
            cases h
            cases d
            · exact ⟨by simp [dataFrameType], fun _ => by simpa using hok, by simp [dataFrameType, isControl]⟩
            · exact ⟨by simp [dataFrameType], by simp [dataFrameType], by simp [dataFrameType, isControl]⟩
      · cases h
    · cases h
  | close => cases more <;> cases h; exact ⟨by simp, by simp, by simp⟩
  | ping => cases more <;> cases h; exact ⟨by simp, by simp, by simp⟩
  | pong => cases more <;> cases h; exact ⟨by simp, by simp, by simp⟩
  | text =>
    simp only [refReassemble, reasmText, startMessage] at h
    repeat' (split at h)
    all_goals cases h
    next hv => exact ⟨by simp, fun _ => hv, by simp⟩
  | binary =>
    simp only [refReassemble, reasmBinary, startMessage] at h
    repeat' (split at h)
    all_goals cases h
    exact ⟨by simp, by simp, by simp⟩

/-- The answer with the state after it changed by `f`. -/
def ReasmEnd.mapState (f : State → State) : ReasmEnd → ReasmEnd
  | .emit t payload s => .emit t payload (f s)
  | .absorb s => .absorb (f s)
  | .bad k s => .bad k (f s)
  | .stop k => .stop k

/-- The reassembler reads the configuration, `pend` and `acc` and nothing else: a change of the rest of the state goes
through it. -/
theorem refReassemble_mapState {f : State → State} (hcfg : ∀ s, (f s).cfg = s.cfg) (hpend : ∀ s, (f s).pend = s.pend)
    (hacc : ∀ s, (f s).acc = s.acc) (hfrag : ∀ p a s, setFrag p a (f s) = f (setFrag p a s))
    (t : FrameType) (payload : List Byte) (more : Bool) (s : State) :
    refReassemble t payload more (f s) = (refReassemble t payload more s).mapState f := by
  have finish : ∀ d whole, finishMessage d whole (f s) = (finishMessage d whole s).mapState f := by
    intro d whole
    simp only [finishMessage, hcfg, hfrag]
    split <;> rfl
  cases t with
  | continuation =>
    simp only [refReassemble, reasmCont, appendFragment, hcfg, hpend, hacc, hfrag, finish]
    repeat' split
    all_goals rfl
  | text =>
    simp only [refReassemble, reasmText, startMessage, hcfg, hpend, hfrag]
    repeat' split
    all_goals rfl
  | binary =>
    simp only [refReassemble, reasmBinary, startMessage, hcfg, hpend, hfrag]
    repeat' split
    all_goals rfl
  | _ => cases more <;> rfl

/-! ## The loop -/

/-- A frame that is absorbed consumed at least two bytes (R140) and latched nothing. -/
theorem frameStep_absorbed {b0 b1 : Byte} {s s' : State} (h : frameStep b0 b1 s = .absorbed s') :
    ∃ n d whole, 2 ≤ n ∧ n ≤ s.rx.length ∧ s' = setFrag (some d) (some whole) (consume n s) ∧
      fitsCap s.cfg.accCap whole.length = true := by
  obtain h' | ⟨k, -, h'⟩ | ⟨t, hd, hc, h'⟩ := frameStep_cases b0 b1 s <;> rw [h'] at h
  · cases h
  · cases h
  · obtain ⟨heq, -, -, hlen, -, -, htot⟩ := checkHeader_hdr hc
    obtain ⟨-, h2, -, -⟩ := decodeLengthAs_len hlen
    have htotal : hd.total = frameTotal hd.h (highBit b1) hd.payloadLen := by rw [heq]
    obtain ⟨_, _, hr⟩ | ⟨_, _, hr⟩ | ⟨d, whole, hr, hf⟩ | ⟨_, -, hr⟩ | ⟨_, hr, -⟩ | ⟨-, hr⟩ :=
      refReassemble_cases t (payloadAt s.rx hd.h hd.masked hd.payloadLen) hd.more (consume hd.total s)
    all_goals rw [hr] at h
    all_goals cases h
    refine ⟨hd.total, d, whole, ?_, by omega, rfl, by simpa using hf⟩
    rw [htotal, frameTotal]
    omega

theorem frameStep_absorbed_shorter {b0 b1 : Byte} {s s' : State} (h : frameStep b0 b1 s = .absorbed s') :
    s'.rx.length + 2 ≤ s.rx.length := by
  obtain ⟨n, d, whole, h2, hn, rfl, -⟩ := frameStep_absorbed h
  simp
  omega

/-- The induction over DEC's loop: `P` holds of the state at every iteration, `Q` of the state DEC leaves. -/
theorem decLoop_induct {P Q : State → Prop}
    (hinc : ∀ s, P s → s.rx.length < 2 → Q (respond (.dec .incomplete) s))
    (hdone : ∀ b0 b1 rest s r s', P s → s.rx = b0 :: b1 :: rest → frameStep b0 b1 s = .done r s' →
      Q (respond (.dec r) s'))
    (habs : ∀ b0 b1 rest s s', P s → s.rx = b0 :: b1 :: rest → frameStep b0 b1 s = .absorbed s' → P s') :
    ∀ fuel s t, s.rx.length ≤ fuel → P s → decLoop fuel s = .next t → Q t := by
  intro fuel
  induction fuel with
  | zero =>
    intro s t hf hP h
    simp only [decLoop] at h
    cases h
    exact hinc s hP (by omega)
  | succ n ih =>
    intro s t hf hP h
    simp only [decLoop] at h
    split at h
    next b0 b1 rest hrx =>
      split at h
      next r s' hstep => cases h; exact hdone b0 b1 rest s r s' hP hrx hstep
      next s' hstep =>
        exact ih s' t (by have := frameStep_absorbed_shorter hstep; omega) (habs b0 b1 rest s s' hP hrx hstep) h
      · cases h
    next hrx =>
      cases h
      refine hinc s hP ?_
      rcases hs : s.rx with _ | ⟨a, _ | ⟨b, c⟩⟩
      · simp
      · simp
      · exact absurd hs (hrx a b c)

/-- The loop does not depend on how much fuel it has, once it has enough. -/
theorem decLoop_fuel : ∀ n m s, s.rx.length ≤ n → s.rx.length ≤ m → decLoop n s = decLoop m s := by
  have zero : ∀ m s, s.rx.length = 0 → decLoop m s = .next (respond (.dec .incomplete) s) := by
    intro m s h
    have hrx : s.rx = [] := List.eq_nil_of_length_eq_zero h
    cases m <;> simp [decLoop, hrx]
  intro n
  induction n with
  | zero => intro m s hn _; rw [zero m s (by omega), zero 0 s (by omega)]
  | succ n ih =>
    intro m s hn hm
    cases m with
    | zero => rw [zero 0 s (by omega), zero (n + 1) s (by omega)]
    | succ m =>
      simp only [decLoop]
      split
      · split
        · rfl
        next s' hstep =>
          have := frameStep_absorbed_shorter hstep
          exact ih m s' (by omega) (by omega)
        · rfl
      · rfl

end Sys2Proof.Machine
end

