-- ==== Sys2Proof/Laws/PerInstr.lean ====
section
/-! SUPPORT. Statements made per instruction. The family `TableRow`: the encoding of a well-formed instruction lies in
that instruction's row of spec/opcode_table.json (its match under its mask). -/

namespace Sys2Proof.Laws

/-- The bits of a code as the table numbers them: byte 0 high and byte 1 low; a length byte; a `type` code. -/
def codeBits : Code → BitVec 16
  | .frame b0 b1 => b0 ++ b1
  | .len b1 => 0#8 ++ b1
  | .port (.enc type _ _ _) => 0#12 ++ type
  | .port (.rxPush _) => 0#16
  | .port .dec => 0#16
  | .port .reset => 0#16
  | .frag _ _ => 0#16

/-- The row of the table: its match and its mask, copied from spec/opcode_table.json. -/
def rowOf : Instr → BitVec 16 × BitVec 16
  | .frameCont _ _ _ => (0x0000#16, 0x7F00#16)
  | .frameClose _ _ _ => (0x0100#16, 0x7F00#16)
  | .framePing _ _ _ => (0x0200#16, 0x7F00#16)
  | .framePong _ _ _ => (0x0300#16, 0x7F00#16)
  | .frameText _ _ _ => (0x0400#16, 0x7F00#16)
  | .frameBinary _ _ _ => (0x0500#16, 0x7F00#16)
  | .illegalRsv1 _ _ _ _ => (0x4000#16, 0x4000#16)
  | .illegalRsv2 _ _ _ _ => (0x2000#16, 0x2000#16)
  | .illegalRsv3 _ _ _ _ => (0x1000#16, 0x1000#16)
  | .illegalOpc6to7 _ _ _ _ => (0x0600#16, 0x7E00#16)
  | .illegalOpc8to15 _ _ _ _ => (0x0800#16, 0x7800#16)
  | .len7 _ _ => (0x00#16, 0x00#16)
  | .len16 _ => (0x7E#16, 0x7F#16)
  | .len64 _ => (0x7F#16, 0x7F#16)
  | .encClose _ _ _ => (0x1#16, 0xF#16)
  | .encPing _ _ _ => (0x2#16, 0xF#16)
  | .encPong _ _ _ => (0x3#16, 0xF#16)
  | .encText _ _ _ => (0x4#16, 0xF#16)
  | .encBinary _ _ _ => (0x5#16, 0xF#16)
  | .encIllegal0 _ _ _ => (0x0#16, 0xF#16)
  | .encIllegal6to7 _ _ _ _ => (0x6#16, 0xE#16)
  | .encIllegal8to15 _ _ _ _ => (0x8#16, 0x8#16)
  | .rxPush _ => (0#16, 0#16)
  | .dec => (0#16, 0#16)
  | .reset => (0#16, 0#16)
  | .frag _ _ => (0#16, 0#16)

/-- A mask on the high part alone does not see the low part. -/
theorem high_mask_gen {v w : Nat} (x z : BitVec v) (y : BitVec w) : (x ++ y) &&& (z ++ 0#w) = (x &&& z) ++ 0#w := by
  refine BitVec.eq_of_getLsbD_eq fun i hi => ?_
  by_cases h : i < w <;> simp [BitVec.getLsbD_append, h]

/-- A mask on byte 0 alone does not see byte 1. -/
theorem high_mask (b0 b1 mb : Byte) : (b0 ++ b1 : BitVec 16) &&& (mb ++ 0#8) = (b0 &&& mb) ++ 0#8 :=
  high_mask_gen b0 mb b1

namespace TableRow

/-- The encoding lies in the instruction's own row. -/
def Statement (i : Instr) : Prop :=
  i.wellFormed = true → codeBits (encode i) &&& (rowOf i).2 = (rowOf i).1

/-- A frame row whose free bits of byte 0 are `b0` lies in its row when byte 0 alone does. -/
theorem of_byte0 {b0 : Byte} (b1 mb vb : Byte) (h : b0 &&& mb = vb) :
    (b0 ++ b1 : BitVec 16) &&& (mb ++ 0#8) = vb ++ 0#8 := by
  rw [high_mask, h]

theorem frameCont (f m : Bool) (l : BitVec 7) : Statement (.frameCont f m l) := fun _ =>
  of_byte0 _ 0x7F#8 0x00#8 (by cases f <;> rfl)

theorem frameClose (f m : Bool) (l : BitVec 7) : Statement (.frameClose f m l) := fun _ =>
  of_byte0 _ 0x7F#8 0x01#8 (by cases f <;> rfl)

theorem framePing (f m : Bool) (l : BitVec 7) : Statement (.framePing f m l) := fun _ =>
  of_byte0 _ 0x7F#8 0x02#8 (by cases f <;> rfl)

theorem framePong (f m : Bool) (l : BitVec 7) : Statement (.framePong f m l) := fun _ =>
  of_byte0 _ 0x7F#8 0x03#8 (by cases f <;> rfl)

theorem frameText (f m : Bool) (l : BitVec 7) : Statement (.frameText f m l) := fun _ =>
  of_byte0 _ 0x7F#8 0x04#8 (by cases f <;> rfl)

theorem frameBinary (f m : Bool) (l : BitVec 7) : Statement (.frameBinary f m l) := fun _ =>
  of_byte0 _ 0x7F#8 0x05#8 (by cases f <;> rfl)

theorem illegalRsv1 (f : Bool) (x : BitVec 6) (m : Bool) (l : BitVec 7) : Statement (.illegalRsv1 f x m l) := fun h =>
  of_byte0 _ 0x40#8 0x40#8 (by clear h; revert f x; decide)

theorem illegalRsv2 (f : Bool) (x : BitVec 5) (m : Bool) (l : BitVec 7) : Statement (.illegalRsv2 f x m l) := fun h =>
  of_byte0 _ 0x20#8 0x20#8 (by clear h; revert f x; decide)

theorem illegalRsv3 (f : Bool) (x : BitVec 4) (m : Bool) (l : BitVec 7) : Statement (.illegalRsv3 f x m l) := fun h =>
  of_byte0 _ 0x10#8 0x10#8 (by clear h; revert f x; decide)

theorem illegalOpc6to7 (f : Bool) (x : BitVec 1) (m : Bool) (l : BitVec 7) : Statement (.illegalOpc6to7 f x m l) := fun h =>
  of_byte0 _ 0x7E#8 0x06#8 (by clear h; revert f x; decide)

theorem illegalOpc8to15 (f : Bool) (x : BitVec 3) (m : Bool) (l : BitVec 7) : Statement (.illegalOpc8to15 f x m l) := fun h =>
  of_byte0 _ 0x78#8 0x08#8 (by clear h; revert f x; decide)

theorem len7 (m : Bool) (l : BitVec 7) : Statement (.len7 m l) := fun _ => by simp [rowOf]

theorem len16 (m : Bool) : Statement (.len16 m) := fun _ => by cases m <;> rfl

theorem len64 (m : Bool) : Statement (.len64 m) := fun _ => by cases m <;> rfl

theorem encClose (p : List Byte) (e : Bool) (k : Key) : Statement (.encClose p e k) := fun _ => by
  simp only [encode, codeBits, rowOf]; decide

theorem encPing (p : List Byte) (e : Bool) (k : Key) : Statement (.encPing p e k) := fun _ => by
  simp only [encode, codeBits, rowOf]; decide

theorem encPong (p : List Byte) (e : Bool) (k : Key) : Statement (.encPong p e k) := fun _ => by
  simp only [encode, codeBits, rowOf]; decide

theorem encText (p : List Byte) (e : Bool) (k : Key) : Statement (.encText p e k) := fun _ => by
  simp only [encode, codeBits, rowOf]; decide

theorem encBinary (p : List Byte) (e : Bool) (k : Key) : Statement (.encBinary p e k) := fun _ => by
  simp only [encode, codeBits, rowOf]; decide

theorem encIllegal0 (p : List Byte) (e : Bool) (k : Key) : Statement (.encIllegal0 p e k) := fun _ => by
  simp only [encode, codeBits, rowOf]; decide

theorem encIllegal6to7 (x : BitVec 1) (p : List Byte) (e : Bool) (k : Key) :
    Statement (.encIllegal6to7 x p e k) := fun h => by
  clear h
  simp only [encode, codeBits, rowOf]; revert x; decide

theorem encIllegal8to15 (x : BitVec 3) (p : List Byte) (e : Bool) (k : Key) :
    Statement (.encIllegal8to15 x p e k) := fun h => by
  clear h
  simp only [encode, codeBits, rowOf]; revert x; decide

theorem rxPush (bytes : List Byte) : Statement (.rxPush bytes) := fun _ => by
  simp only [encode, codeBits, rowOf]; decide

theorem dec : Statement .dec := fun _ => by
  simp only [encode, codeBits, rowOf]; decide

theorem reset : Statement .reset := fun _ => by
  simp only [encode, codeBits, rowOf]; decide

theorem frag (t : DataType) (parts : List FragPart) : Statement (.frag t parts) := fun _ => by
  simp only [encode, codeBits, rowOf]; decide

end TableRow

end Sys2Proof.Laws
end

