-- ==== Sys2Proof/Laws/Rows.lean ====
section
/-! SUPPORT. What each class of rows can do, said once: a decode-side row is one frame and then DEC's loop, every other
row is one response, one push or one reset; and how byte 0 selects the row. -/

namespace Sys2Proof.Machine

open Sys2Proof.Claims

/-! ## The bytes of an encoded row -/

theorem byte1Of_fields (m : Bool) (l : BitVec 7) : highBit (byte1Of m l) = m ∧ low7 (byte1Of m l) = l := by
  revert m l; decide

theorem byte1Of_join (b : Byte) : byte1Of (highBit b) (low7 b) = b := by
  revert b; decide

theorem byte0Of_high (f : Bool) (o : BitVec 4) : highBit (byte0Of f o) = f := by
  revert f o; decide

theorem byte0Of_row (f : Bool) (t : FrameType) : frameRow (byte0Of f t.opcode) = .frame t := by
  cases f <;> cases t <;> rfl

theorem rsv1_byte (f : Bool) (x : BitVec 6) : frameRow (BitVec.ofBool f ++ (1#1 ++ x)) = .rsv1 ∧
    highBit (BitVec.ofBool f ++ (1#1 ++ x)) = f ∧ (BitVec.ofBool f ++ (1#1 ++ x) : Byte).extractLsb' 0 6 = x := by
  revert f x; decide

theorem rsv2_byte (f : Bool) (x : BitVec 5) : frameRow (BitVec.ofBool f ++ (1#2 ++ x)) = .rsv2 ∧
    highBit (BitVec.ofBool f ++ (1#2 ++ x)) = f ∧ (BitVec.ofBool f ++ (1#2 ++ x) : Byte).extractLsb' 0 5 = x := by
  revert f x; decide

theorem rsv3_byte (f : Bool) (x : BitVec 4) : frameRow (BitVec.ofBool f ++ (1#3 ++ x)) = .rsv3 ∧
    highBit (BitVec.ofBool f ++ (1#3 ++ x)) = f ∧ (BitVec.ofBool f ++ (1#3 ++ x) : Byte).extractLsb' 0 4 = x := by
  revert f x; decide

theorem opc6to7_byte (f : Bool) (x : BitVec 1) : frameRow (BitVec.ofBool f ++ (3#6 ++ x)) = .opc6to7 ∧
    highBit (BitVec.ofBool f ++ (3#6 ++ x)) = f ∧ (BitVec.ofBool f ++ (3#6 ++ x) : Byte).extractLsb' 0 1 = x := by
  revert f x; decide

theorem opc8to15_byte (f : Bool) (x : BitVec 3) : frameRow (BitVec.ofBool f ++ (1#4 ++ x)) = .opc8to15 ∧
    highBit (BitVec.ofBool f ++ (1#4 ++ x)) = f ∧ (BitVec.ofBool f ++ (1#4 ++ x) : Byte).extractLsb' 0 3 = x := by
  revert f x; decide

/-! ## Message types on the port -/

@[simp] theorem opcodeToType_opcode (t : FrameType) : opcodeToType t.opcode = .ok t := by
  cases t <;> rfl

theorem opcode_of_opcodeToType {code : BitVec 4} {t : FrameType} (h : opcodeToType code = .ok t) : code = t.opcode := by
  unfold opcodeToType at h
  split at h <;> cases h <;> exact BitVec.eq_of_toNat_eq ‹_›

/-- A lawful message is one of a type other than Continuation, under its opcode (R78), of a lawful payload. -/
theorem messageLawful_iff (p : Utf8Predicate) (code : BitVec 4) (payload : List Byte) :
    messageLawful p code payload = true ↔ ∃ t : FrameType, code = t.opcode ∧ t ≠ .continuation ∧
      (isControl t = true → payload.length ≤ 125) ∧ (t = .text → utf8Valid p payload = true) := by
  have lawful : ∀ t : FrameType, messageLawful p t.opcode payload = true ↔ t ≠ .continuation ∧
      (isControl t = true → payload.length ≤ 125) ∧ (t = .text → utf8Valid p payload = true) := by
    intro t
    cases t <;> simp [messageLawful, isControl]
  constructor
  · intro h
    cases hc : opcodeToType code with
    | error k => simp [messageLawful, hc] at h
    | ok t =>
      obtain rfl := opcode_of_opcodeToType hc
      exact ⟨t, rfl, (lawful t).mp h⟩
  · rintro ⟨t, rfl, h⟩
    exact (lawful t).mpr h

/-! ## Decode-side rows -/

/-- A row DEC executes is one frame followed by DEC's loop, or DEC itself. -/
theorem exec_decodeSide_cases (i : Instr) (h : decodeSide i = true) (s : State) :
    (∃ b0 b1, exec i s = decFrame (frameStep b0 b1) s) ∨ exec i s = execDec s := by
  have wire : ∀ t f m l frame, (∀ s, frameStep (byte0Of f (FrameType.opcode t)) (byte1Of m l) s = frame s) →
      ∃ b0 b1, decFrame frame s = decFrame (frameStep b0 b1) s := fun t f m l frame hfr =>
    ⟨byte0Of f t.opcode, byte1Of m l, by rw [show frameStep (byte0Of f t.opcode) (byte1Of m l) = frame from funext hfr]⟩
  cases i with
  | dec => exact .inr rfl
  | frameCont f m l => exact .inl (wire .continuation f m l _ fun s => by
      simp only [frameStep, byte0Of_row, byte0Of_high, byte1Of_fields])
  | frameClose f m l => exact .inl (wire .close f m l _ fun s => by
      simp only [frameStep, byte0Of_row, byte0Of_high, byte1Of_fields])
  | framePing f m l => exact .inl (wire .ping f m l _ fun s => by
      simp only [frameStep, byte0Of_row, byte0Of_high, byte1Of_fields])
  | framePong f m l => exact .inl (wire .pong f m l _ fun s => by
      simp only [frameStep, byte0Of_row, byte0Of_high, byte1Of_fields])
  | frameText f m l => exact .inl (wire .text f m l _ fun s => by
      simp only [frameStep, byte0Of_row, byte0Of_high, byte1Of_fields])
  | frameBinary f m l => exact .inl (wire .binary f m l _ fun s => by
      simp only [frameStep, byte0Of_row, byte0Of_high, byte1Of_fields])
  | illegalRsv1 f x m l => exact .inl ⟨0x40#8, 0#8, rfl⟩
  | illegalRsv2 f x m l => exact .inl ⟨0x20#8, 0#8, rfl⟩
  | illegalRsv3 f x m l => exact .inl ⟨0x10#8, 0#8, rfl⟩
  | illegalOpc6to7 f x m l => exact .inl ⟨0x06#8, 0#8, rfl⟩
  | illegalOpc8to15 f x m l => exact .inl ⟨0x08#8, 0#8, rfl⟩
  | _ => simp [decodeSide] at h

/-- Everything one frame that ends DEC can do: nothing, the latch alone, the frame consumed and the latch set, the
same with the accumulated Text kept, or a checked message with the frame consumed. -/
theorem frameStep_done {b0 b1 : Byte} {s s' : State} {r : DecResult} (h : frameStep b0 b1 s = .done r s') :
    (r = .incomplete ∧ s' = s) ∨
    (∃ k, ErrKind.decodeSide k = true ∧ r = .protocolError k ∧ s' = { s with fault := some k }) ∨
    (∃ k n, ErrKind.decodeSide k = true ∧ r = .protocolError k ∧ s' = { consume n s with fault := some k }) ∨
    (∃ n whole, r = .protocolError .invalidPayloadEncoding ∧ fitsCap s.cfg.accCap whole.length = true ∧
      s' = { setFrag (some .text) (some whole) (consume n s) with fault := some .invalidPayloadEncoding }) ∨
    (∃ n t p, r = .message t.opcode p true ∧ (s' = consume n s ∨ s' = setFrag none none (consume n s)) ∧
      t ≠ .continuation ∧ (t = .text → utf8Valid s.cfg.utf8 p = true) ∧ (isControl t = true → p.length ≤ 125)) := by
  obtain h' | ⟨k, hk, h'⟩ | ⟨t, hd, hc, h'⟩ := frameStep_cases b0 b1 s <;> rw [h'] at h
  · cases h; exact .inl ⟨rfl, rfl⟩
  · cases h; exact .inr (.inl ⟨k, hk, rfl, rfl⟩)
  · have msg : ∀ {ty p z}, refReassemble t (payloadAt s.rx hd.h hd.masked hd.payloadLen) hd.more (consume hd.total s) =
        .emit ty p z → ty ≠ .continuation ∧ (ty = .text → utf8Valid s.cfg.utf8 p = true) ∧
          (isControl ty = true → p.length ≤ 125) := by
      intro ty p z hr
      obtain ⟨h1, h2, h3⟩ := refReassemble_emit hr
      refine ⟨h1, h2, fun hct => ?_⟩
      obtain ⟨rfl, rfl⟩ := h3 hct
      exact le_trans (payloadAt_length_le _ _ _ _) ((checkHeader_hdr hc).2.2.2.2.1 hct)
    obtain ⟨ty, p, hr⟩ | ⟨ty, p, hr⟩ | ⟨d, whole, hr, hf⟩ | ⟨k, hk, hr⟩ | ⟨w, hr, hf⟩ | ⟨-, hr⟩ :=
      refReassemble_cases t (payloadAt s.rx hd.h hd.masked hd.payloadLen) hd.more (consume hd.total s)
    all_goals rw [hr] at h; cases h
    · exact .inr (.inr (.inr (.inr ⟨_, _, _, rfl, .inl rfl, msg hr⟩)))
    · exact .inr (.inr (.inr (.inr ⟨_, _, _, rfl, .inr rfl, msg hr⟩)))
    · exact .inr (.inr (.inl ⟨k, _, hk, rfl, rfl⟩))
    · exact .inr (.inr (.inr (.inl ⟨_, w, rfl, by simpa using hf, rfl⟩)))

/-- The induction over any decode-side row: `P` holds before every frame, `Q` of the state the row leaves. -/
theorem exec_decodeSide_induct {P Q : State → Prop} (i : Instr) (hi : decodeSide i = true)
    (hfault : ∀ s k, s.fault = some k → P s → Q (respond (.dec (.protocolError k)) s))
    (hinc : ∀ s, P s → s.rx.length < 2 → s.fault = none → Q (respond (.dec .incomplete) s))
    (hdone : ∀ b0 b1 s r s', P s → s.fault = none → frameStep b0 b1 s = .done r s' → Q (respond (.dec r) s'))
    (habs : ∀ b0 b1 s s', P s → s.fault = none → frameStep b0 b1 s = .absorbed s' → P s') :
    ∀ s t, P s → exec i s = .next t → Q t := by
  have noFault : ∀ {b0 b1 s s'}, s.fault = none → frameStep b0 b1 s = .absorbed s' → s'.fault = none := by
    intro b0 b1 s s' hf h
    obtain ⟨n, d, w, _, _, rfl, _⟩ := frameStep_absorbed h
    simpa using hf
  have loop : ∀ s t, P s → s.fault = none → decLoop s.rx.length s = .next t → Q t := fun s t hP hf h =>
    decLoop_induct (P := fun s => P s ∧ s.fault = none) (Q := Q)
      (fun s h1 h2 => hinc s h1.1 h2 h1.2)
      (fun b0 b1 _ s r s' h1 _ h2 => hdone b0 b1 s r s' h1.1 h1.2 h2)
      (fun b0 b1 _ s s' h1 _ h2 => ⟨habs b0 b1 s s' h1.1 h1.2 h2, noFault h1.2 h2⟩)
      _ s t le_rfl ⟨hP, hf⟩ h
  intro s t hP h
  obtain ⟨b0, b1, he⟩ | he := exec_decodeSide_cases i hi s <;> rw [he] at h
  · unfold decFrame at h
    split at h
    next k hk => cases h; exact hfault s k hk hP
    next hk =>
      cases hst : frameStep b0 b1 s with
      | done r s' => rw [hst] at h; cases h; exact hdone b0 b1 s r s' hP hk hst
      | stop f => rw [hst] at h; cases h
      | absorbed s' => rw [hst] at h; exact loop s' t (habs b0 b1 s s' hP hk hst) (noFault hk hst) h
  · unfold execDec at h
    split at h
    next k hk => cases h; exact hfault s k hk hP
    next hk => exact loop s t hP hk h

/-! ## The other rows -/

/-- Everything an ENC can do: answer Error(UnknownFrameType), or emit one frame (R150, R156). -/
theorem encGeneral_next {ty : BitVec 4} {p : List Byte} {e : Bool} {k : Key} {s t : State}
    (h : encGeneral ty p e k s = .next t) :
    t = respond (.enc (.error .unknownFrameType)) s ∨
    ∃ bytes, serialize s.cfg.finPolicy false ty (encKey e k) p = some bytes ∧
      t = respond (.enc (.frame bytes)) (emitTx bytes s) := by
  unfold encGeneral typeToOpcode at h
  split at h
  · by_cases hty : 1 ≤ ty.toNat ∧ ty.toNat ≤ 5
    · rw [if_pos hty] at h
      simp only at h
      split at h
      next bytes hs => cases h; exact .inr ⟨bytes, hs, rfl⟩
      · cases h
    · rw [if_neg hty] at h; cases h; exact .inl rfl
  · cases h

/-- Everything a row that is not DEC's can do: one lawful length, one encode answer, one push, or the reset. -/
theorem exec_otherSide_cases (i : Instr) (hi : decodeSide i = false) (s t : State) (h : exec i s = .next t) :
    (∃ r, t = respond (.length r) s ∧ Response.lawful s.cfg.utf8 (.length r) = true ∧ lengthRow i = true) ∨
    (t = respond (.enc (.error .unknownFrameType)) s ∧ encodeSide i = true) ∨
    (∃ b, t = respond (.enc (.frame b)) (emitTx b s) ∧ encodeSide i = true) ∨
    (∃ b, t = pushBytes b s ∧ (i = .rxPush b ∨ ∃ ty parts, i = .frag ty parts)) ∨
    (t = retire (clearState s) ∧ i = .reset) := by
  have len : ∀ p m (l : BitVec 7) rx, Response.lawful s.cfg.utf8 (.length (decodeLengthAs p m l rx)) = true := by
    intro p m l rx
    obtain h | ⟨_, h⟩ | ⟨_, _, hh, hn, h⟩ := decodeLengthAs_cases p m l rx <;> rw [h]
    · rfl
    · rfl
    · simp [Response.lawful]; omega
  have enc : ∀ {ty p e k}, encodeSide i = true → encGeneral ty p e k s = .next t →
      (t = respond (.enc (.error .unknownFrameType)) s ∧ encodeSide i = true) ∨
      (∃ b, t = respond (.enc (.frame b)) (emitTx b s) ∧ encodeSide i = true) ∨
      (∃ b, t = pushBytes b s ∧ (i = .rxPush b ∨ ∃ ty parts, i = .frag ty parts)) ∨
      (t = retire (clearState s) ∧ i = .reset) := by
    intro ty p e k hs h
    obtain h | ⟨b, -, h⟩ := encGeneral_next h
    · exact .inl ⟨h, hs⟩
    · exact .inr (.inl ⟨b, h, hs⟩)
  cases i with
  | len7 m l => cases h; exact .inl ⟨_, rfl, by simp [lenShort, Response.lawful]; have := l.isLt; omega, rfl⟩
  | len16 m => cases h; exact .inl ⟨_, rfl, len .truncate m 126#7 s.rx, rfl⟩
  | len64 m => cases h; exact .inl ⟨_, rfl, len s.cfg.highLen m 127#7 s.rx, rfl⟩
  | encClose p e k => exact .inr (enc (ty := 1#4) rfl h)
  | encPing p e k => exact .inr (enc (ty := 2#4) rfl h)
  | encPong p e k => exact .inr (enc (ty := 3#4) rfl h)
  | encText p e k => exact .inr (enc (ty := 4#4) rfl h)
  | encBinary p e k => exact .inr (enc (ty := 5#4) rfl h)
  | encIllegal0 p e k => exact .inr (enc (ty := 0#4) (e := e) (k := k) rfl h)
  | encIllegal6to7 x p e k => exact .inr (enc (ty := 3#3 ++ x) (e := e) (k := k) rfl h)
  | encIllegal8to15 x p e k => exact .inr (enc (ty := 1#1 ++ x) (e := e) (k := k) rfl h)
  | rxPush b => cases h; exact .inr (.inr (.inr (.inl ⟨_, rfl, .inl rfl⟩)))
  | reset => cases h; exact .inr (.inr (.inr (.inr ⟨rfl, rfl⟩)))
  | frag ty parts =>
    simp only [exec, execFrag] at h
    split at h
    · cases h; exact .inr (.inr (.inr (.inl ⟨_, rfl, .inr ⟨ty, parts, rfl⟩⟩)))
    · cases h
  | _ => simp [decodeSide] at hi

end Sys2Proof.Machine
end

