-- ==== Sys2Proof/Tests/Slice0.lean ====
section
/-! SUPPORT. Tests of the model: the WellFormed smoke tests, words written out from 30_encoding and decoded, one step
each on vectors of 95_test_vectors (their ids in the names), and, for every obligation with hypotheses, a witness that
meets them. -/

namespace Sys2Proof.Tests

open Sys2Proof.Machine Sys2Proof.Claims

/-! ## Helpers -/

/-- Bytes from numbers. -/
def bs (l : List Nat) : List Byte := l.map (BitVec.ofNat 8)

/-- Four key bytes. -/
def key (a b c d : Nat) : Key := ⟨BitVec.ofNat 8 a, BitVec.ofNat 8 b, BitVec.ofNat 8 c, BitVec.ofNat 8 d⟩

/-- A block with MAXFS `n`, a receive buffer, and one pending host operation. -/
def block (n : Nat) (rx : List Nat) (op : HostOp) : State :=
  { State.reset with cfg := { Config.default with maxFs := n }, rx := bs rx, ops := [.host op] }

/-- The same block while a message is pending. -/
def blockAcc (n : Nat) (rx : List Nat) (t : DataType) (acc : List Nat) (op : HostOp) : State :=
  { block n rx op with pend := some t, acc := some (bs acc) }

/-- What the vectors of section 2.7 give: result, and `rx`, `pend`, `acc`, `fault` after. -/
structure Row where
  out   : List Response
  rx    : List Byte
  pend  : Option DataType
  acc   : Option (List Byte)
  fault : Option ErrKind
deriving DecidableEq, Repr

/-- The row a step answers. -/
def rowOf (o : Host.Outcome State Fault Refusal) : Option Row :=
  match o with
  | .next s => some ⟨s.out, s.rx, s.pend, s.acc, s.fault⟩
  | .fault _ => none
  | .refused _ => none

/-- The transmit stream and the results a step answers. -/
def txOf (o : Host.Outcome State Fault Refusal) : Option (List Byte × List Response) :=
  match o with
  | .next s => some (s.tx, s.out)
  | .fault _ => none
  | .refused _ => none

/-! ## WellFormed: an ill-formed term for each check -/

theorem test_wellFormed_len7_126 : (Instr.len7 false 126#7).wellFormed = false := by decide

theorem test_wellFormed_len7_125 : (Instr.len7 false 125#7).wellFormed = true := by decide

/-- A payload of `2^32` bytes. -/
def huge : List Byte := List.replicate 4294967296 0#8

theorem huge_length : huge.length = 4294967296 := List.length_replicate

theorem test_wellFormed_enc_huge :
    (Instr.encText huge false (key 0 0 0 0)).wellFormed = false ∧
    (Instr.encBinary huge false (key 0 0 0 0)).wellFormed = false ∧
    (Instr.encClose huge false (key 0 0 0 0)).wellFormed = false ∧
    (Instr.encPing huge false (key 0 0 0 0)).wellFormed = false ∧
    (Instr.encPong huge false (key 0 0 0 0)).wellFormed = false := by
  simp [Instr.wellFormed, encodableLength, huge_length]

theorem test_wellFormed_encIllegal_huge :
    (Instr.encIllegal0 huge false (key 0 0 0 0)).wellFormed = false ∧
    (Instr.encIllegal6to7 1#1 huge false (key 0 0 0 0)).wellFormed = false ∧
    (Instr.encIllegal8to15 1#3 huge false (key 0 0 0 0)).wellFormed = false := by
  simp [Instr.wellFormed, encodableLength, huge_length]

theorem test_wellFormed_frag_one_part : (Instr.frag .text [⟨bs [0x48], none⟩]).wellFormed = false := by decide

theorem test_wellFormed_frag_huge : (Instr.frag .text [⟨[], none⟩, ⟨huge, none⟩]).wellFormed = false := by
  simp [Instr.wellFormed, fragParts, encodableLength, huge_length]

/-! ## Words written out from the encodings of 30_encoding -/

/-- R59, R51, R52: 0x80 0x85 is FRAME.CONT with more, masked, LEN7 5; 0x01 0x02, 0x02 0x00, 0x03 0x7D the controls. -/
theorem test_decode_frames :
    decode (.frame 0x80#8 0x85#8) = .frameCont true true 5#7 ∧
    decode (.frame 0x01#8 0x02#8) = .frameClose false false 2#7 ∧
    decode (.frame 0x02#8 0x00#8) = .framePing false false 0#7 ∧
    decode (.frame 0x03#8 0x7D#8) = .framePong false false 125#7 ∧
    decode (.frame 0x84#8 0xFE#8) = .frameText true true 126#7 ∧
    decode (.frame 0x05#8 0x7F#8) = .frameBinary false false 127#7 := by decide

/-- R60, R61: 0x44, 0x24, 0x14, 0x1F, 0xC2 have a reserved bit; 0x06, 0x07, 0x08, 0x8F are unknown opcodes. -/
theorem test_decode_illegal :
    decode (.frame 0x44#8 0x00#8) = .illegalRsv1 false 4#6 false 0#7 ∧
    decode (.frame 0x24#8 0x05#8) = .illegalRsv2 false 4#5 false 5#7 ∧
    decode (.frame 0x1F#8 0x00#8) = .illegalRsv3 false 15#4 false 0#7 ∧
    decode (.frame 0xC2#8 0x00#8) = .illegalRsv1 true 2#6 false 0#7 ∧
    decode (.frame 0x06#8 0x00#8) = .illegalOpc6to7 false 0#1 false 0#7 ∧
    decode (.frame 0x07#8 0x80#8) = .illegalOpc6to7 false 1#1 true 0#7 ∧
    decode (.frame 0x08#8 0x00#8) = .illegalOpc8to15 false 0#3 false 0#7 ∧
    decode (.frame 0x8F#8 0x00#8) = .illegalOpc8to15 true 7#3 false 0#7 := by decide

/-- R52: the length byte. -/
theorem test_decode_len :
    decode (.len 0x85#8) = .len7 true 5#7 ∧ decode (.len 0x7D#8) = .len7 false 125#7 ∧
    decode (.len 0x7E#8) = .len16 false ∧ decode (.len 0xFE#8) = .len16 true ∧
    decode (.len 0x7F#8) = .len64 false ∧ decode (.len 0xFF#8) = .len64 true := by decide

/-- R67: the ENC port's `type`. -/
theorem test_decode_enc :
    decode (.port (.enc 1#4 [] false (key 0 0 0 0))) = .encClose [] false (key 0 0 0 0) ∧
    decode (.port (.enc 2#4 [] false (key 0 0 0 0))) = .encPing [] false (key 0 0 0 0) ∧
    decode (.port (.enc 3#4 [] false (key 0 0 0 0))) = .encPong [] false (key 0 0 0 0) ∧
    decode (.port (.enc 4#4 [] false (key 0 0 0 0))) = .encText [] false (key 0 0 0 0) ∧
    decode (.port (.enc 5#4 [] false (key 0 0 0 0))) = .encBinary [] false (key 0 0 0 0) ∧
    decode (.port (.enc 0#4 [] false (key 0 0 0 0))) = .encIllegal0 [] false (key 0 0 0 0) ∧
    decode (.port (.enc 7#4 [] false (key 0 0 0 0))) = .encIllegal6to7 1#1 [] false (key 0 0 0 0) ∧
    decode (.port (.enc 15#4 [] false (key 0 0 0 0))) = .encIllegal8to15 7#3 [] false (key 0 0 0 0) := by decide

/-- R67: the other ports and the pseudo-frame. -/
theorem test_decode_ports :
    decode (.port (.rxPush (bs [0x04]))) = .rxPush (bs [0x04]) ∧ decode (.port .dec) = .dec ∧
    decode (.port .reset) = .reset ∧
    decode (.frag .text [⟨[], none⟩, ⟨[], none⟩]) = .frag .text [⟨[], none⟩, ⟨[], none⟩] := by decide

/-- Fewer than two bytes hold no header (R130). -/
theorem test_decodeBytes_short : decodeBytes (bs [0x24]) = .error .needTwoBytes := by rfl

/-- The fixed bits of spec/opcode_table.json, one word per row that has any. -/
theorem test_decodeTableWord :
    decodeTableWord 16 0x0000 = some (.frameCont false false 0#7) ∧
    decodeTableWord 16 0x0400 = some (.frameText false false 0#7) ∧
    decodeTableWord 16 0x2000 = some (.illegalRsv2 false 0#5 false 0#7) ∧
    decodeTableWord 16 0x0600 = some (.illegalOpc6to7 false 0#1 false 0#7) ∧
    decodeTableWord 8 0x7E = some (.len16 false) ∧ decodeTableWord 8 0x7F = some (.len64 false) ∧
    decodeTableWord 8 0x4 = some (.encText [] false (key 0 0 0 0)) ∧
    decodeTableWord 8 0x8 = some (.encIllegal8to15 0#3 [] false (key 0 0 0 0)) := by decide

/-- A table word is the first thing the block runs after reset: an empty Text frame gives an empty message (V112). -/
theorem test_withFetchWord_text :
    rowOf (step (State.reset.withFetchWord 16 0x0400)) =
      some ⟨[.dec (.message 4#4 [] true)], [], none, none, none⟩ := by decide

theorem test_withFetchWord_len16 :
    rowOf (step (State.reset.withFetchWord 8 0x7E)) =
      some ⟨[.length (.len 4 false 0)], bs [0, 0x7E, 0, 0], none, none, none⟩ := by decide

/-! ## Header codec, length codec, masking, UTF-8 -/

/-- V7, V8: the classes of the six types in opcode order. -/
theorem test_V7_V8_classes :
    [FrameType.continuation, .close, .ping, .pong, .text, .binary].map isControl =
      [false, true, true, true, false, false] ∧
    [FrameType.continuation, .close, .ping, .pong, .text, .binary].map isData =
      [false, false, false, false, true, true] := by decide

/-- V9, V11, V12: flags of byte 0 and byte 1. -/
theorem test_V9_V12_flags :
    moreOf false 0x84#8 = true ∧ moreOf false 0x04#8 = false ∧ rsvOf 0x24#8 = 2#3 ∧ rsvOf 0x44#8 = 4#3 ∧
    rsvOf 0x14#8 = 1#3 ∧ rsvOf 0x84#8 = 0#3 ∧ maskedOf 0x85#8 = true ∧ len7Of 0x85#8 = 5#7 ∧
    maskedOf 0x7E#8 = false ∧ len7Of 0xFF#8 = 127#7 := by decide

/-- V16 to V23: EncodeLength at its boundaries. -/
theorem test_V16_V23_encodeLength :
    encodeLength 125 0x80#8 = some (bs [0xFD]) ∧ encodeLength 126 0#8 = some (bs [0x7E, 0, 0x7E]) ∧
    encodeLength 127 0x80#8 = some (bs [0xFE, 0, 0x7F]) ∧ encodeLength 65535 0#8 = some (bs [0x7E, 0xFF, 0xFF]) ∧
    encodeLength 65536 0#8 = some (bs [0x7F, 0, 0, 0, 0, 0, 1, 0, 0]) ∧
    encodeLength 16909060 0#8 = some (bs [0x7F, 0, 0, 0, 0, 1, 2, 3, 4]) ∧
    encodeLength 4294967295 0#8 = some (bs [0x7F, 0, 0, 0, 0, 0xFF, 0xFF, 0xFF, 0xFF]) := by decide

/-- V24: a length of `2^32` is refused. -/
theorem test_V24_encodeLength_refused : encodeLength 4294967296 0#8 = none := by decide

/-- V27 to V38: DecodeLength under both policies. -/
theorem test_V27_V38_decodeLength :
    decodeLength .truncate (bs [0x04, 0x7E, 0x01]) = .needMore ∧
    decodeLength .truncate (bs [0x04, 0xFE, 0xFF, 0xFF]) = .len 4 true 65535 ∧
    decodeLength .truncate (bs [0x05, 0x7F, 0, 0, 0, 0, 0, 0, 0]) = .needMore ∧
    decodeLength .truncate (bs [0x05, 0xFF, 0, 0, 0, 0, 0xFF, 0xFF, 0xFF, 0xFF]) = .len 10 true 4294967295 ∧
    decodeLength .truncate (bs [0x05, 0x7F, 0, 0, 0, 1, 0, 0, 0, 2]) = .len 10 false 2 ∧
    decodeLength .reject (bs [0x05, 0x7F, 0, 0, 0, 1, 0, 0, 0, 2]) = .bad .lengthRangeUnsupported ∧
    decodeLength .reject (bs [0x05, 0x7F, 0, 0, 0, 0, 0, 0, 0, 2]) = .len 10 false 2 := by decide

/-- V47: the key index wraps at 4 and 8. -/
theorem test_V47_mask :
    mask (bs [0xAA, 0xAA, 0xAA, 0xAA, 0xAA, 0xAA, 0xAA, 0xAA, 0xAA]) (key 1 2 4 8) =
      bs [0xAB, 0xA8, 0xAE, 0xA2, 0xAB, 0xA8, 0xAE, 0xA2, 0xAB] := by decide

/-- V50 to V58, under R117's table: well-formed sequences, and the source's lone continuation byte. -/
theorem test_V50_V58_utf8 :
    ([bs [0x48, 0x65], [], bs [0xE2, 0x82, 0xAC], bs [0xF0, 0x9F, 0x98, 0x80], bs [0xF4, 0x8F, 0xBF, 0xBF],
      bs [0xED, 0x9F, 0xBF]].all (utf8Valid Config.default.utf8)) = true ∧
    utf8Valid Config.default.utf8 (bs [0x80]) = false := by decide

/-- V59 to V66: overlong forms, surrogates, above U+10FFFF, truncated. -/
theorem test_V59_V66_utf8 :
    ([bs [0xC0, 0x80], bs [0xC1, 0xBF], bs [0xE0, 0x80, 0x80], bs [0xF0, 0x8F, 0x80, 0x80], bs [0xED, 0xA0, 0x80],
      bs [0xF4, 0x90, 0x80, 0x80], bs [0xF5, 0x80, 0x80, 0x80], bs [0xE2, 0x82],
      bs [0xE2, 0x82, 0x41]].any (utf8Valid Config.default.utf8)) = false := by decide

/-! ## DEC on the vectors of section 2.7 -/

/-- V83: one byte is never inspected. -/
theorem test_V83_one_byte :
    rowOf (step (block 64 [0x24] .dec)) = some ⟨[.dec .incomplete], bs [0x24], none, none, none⟩ := by decide

/-- V86: the reserved bit wins over the unknown opcode. -/
theorem test_V86_reserved :
    rowOf (step (block 64 [0x1F, 0x00] .dec)) =
      some ⟨[.dec (.protocolError .reservedBitUsed)], bs [0x1F, 0], none, none, some .reservedBitUsed⟩ := by decide

theorem test_V85_reserved_bit6 :
    rowOf (step (block 64 [0x44, 0x00] .dec)) =
      some ⟨[.dec (.protocolError .reservedBitUsed)], bs [0x44, 0], none, none, some .reservedBitUsed⟩ := by decide

theorem test_S6_reserved_second_bit :
    rowOf (step (block 64 [0x24, 0x05] .dec)) =
      some ⟨[.dec (.protocolError .reservedBitUsed)], bs [0x24, 5], none, none, some .reservedBitUsed⟩ := by decide

theorem test_V87_unknown_opcode :
    rowOf (step (block 64 [0x06, 0x00] .dec)) =
      some ⟨[.dec (.protocolError .unknownOpcode)], bs [0x06, 0], none, none, some .unknownOpcode⟩ := by decide

theorem test_V88_unknown_opcode :
    rowOf (step (block 64 [0x8F, 0x00] .dec)) =
      some ⟨[.dec (.protocolError .unknownOpcode)], bs [0x8F, 0], none, none, some .unknownOpcode⟩ := by decide

/-- V90: step 5 comes before the length is looked at. -/
theorem test_V90_fragmented_close :
    rowOf (step (block 64 [0x81, 0x7E, 0x00, 0xFF] .dec)) =
      some ⟨[.dec (.protocolError .fragmentedControlFrame)], bs [0x81, 0x7E, 0, 0xFF], none, none,
        some .fragmentedControlFrame⟩ := by decide

/-- V92, second DEC: step 6 at header time, the frame not consumed. -/
theorem test_V92_data_instead :
    rowOf (step (blockAcc 64 [0x05, 0x09] .text [0x61] .dec)) =
      some ⟨[.dec (.protocolError .dataFrameInsteadContinuation)], bs [5, 9], some .text, some (bs [0x61]),
        some .dataFrameInsteadContinuation⟩ := by decide

/-- V95: a non-minimal length on a control frame is accepted. P1 step 3: the first fragment is absorbed, the Ping
between the fragments is returned. -/
theorem test_V95_P1_ping :
    rowOf (step (block 1000 [0x02, 0x7E, 0x00, 0x03, 0x61, 0x62, 0x63] .dec)) =
      some ⟨[.dec (.message 2#4 (bs [0x61, 0x62, 0x63]) true)], [], none, none, none⟩ ∧
    rowOf (step (block 64 [0x84, 2, 0x48, 0x65, 2, 1, 0x70, 0, 3, 0x6C, 0x6C, 0x6F, 5, 2, 1, 2, 4] .dec)) =
      some ⟨[.dec (.message 2#4 (bs [0x70]) true)], bs [0, 3, 0x6C, 0x6C, 0x6F, 5, 2, 1, 2, 4], some .text,
        some (bs [0x48, 0x65]), none⟩ := by decide

/-- V99: ControlFramePayloadTooLong wins over TooLong. -/
theorem test_V99_control_too_long :
    rowOf (step (block 10 [0x02, 0x7E, 0x01, 0x00] .dec)) =
      some ⟨[.dec (.protocolError .controlFramePayloadTooLong)], bs [2, 0x7E, 1, 0], none, none,
        some .controlFramePayloadTooLong⟩ := by decide

/-- V102, V104: a total equal to MAXFS is accepted; the key counts. -/
theorem test_V102_V104_maxfs :
    rowOf (step (block 10 [0x05, 0x08, 0, 0, 0, 0, 0, 0, 0, 0] .dec)) =
      some ⟨[.dec (.message 5#4 (bs [0, 0, 0, 0, 0, 0, 0, 0]) true)], [], none, none, none⟩ ∧
    rowOf (step (block 10 [0x05, 0x85, 1, 2, 3, 4] .dec)) =
      some ⟨[.dec (.protocolError .tooLong)], bs [5, 0x85, 1, 2, 3, 4], none, none, some .tooLong⟩ := by decide

/-- V106: a masked Text frame; one residual byte stays. -/
theorem test_V106_masked_text :
    rowOf (step (block 64 [0x04, 0x85, 0x37, 0xFA, 0x21, 0x3D, 0x7F, 0x9F, 0x4D, 0x51, 0x58, 0x02] .dec)) =
      some ⟨[.dec (.message 4#4 (bs [0x48, 0x65, 0x6C, 0x6C, 0x6F]) true)], bs [2], none, none, none⟩ := by decide

/-- S7: an invalid Text message, its frame consumed. -/
theorem test_S7_invalid_text :
    rowOf (step (block 64 [0x04, 0x01, 0x80] .dec)) =
      some ⟨[.dec (.protocolError .invalidPayloadEncoding)], [], none, none, some .invalidPayloadEncoding⟩ := by decide

/-- R9, R117: another predicate, a table of the bytes 80 to FF, takes S7's payload and rejects `H`. -/
theorem test_R9_other_predicate :
    (let s := block 64 [0x04, 0x01, 0x80] .dec
     rowOf (step { s with cfg := { s.cfg with utf8 := .patterns [⟨0x80, 0xFF, []⟩] } })) =
      some ⟨[.dec (.message 4#4 (bs [0x80]) true)], [], none, none, none⟩ ∧
    (let s := block 64 [0x04, 0x01, 0x48] .dec
     rowOf (step { s with cfg := { s.cfg with utf8 := .patterns [⟨0x80, 0xFF, []⟩] } })) =
      some ⟨[.dec (.protocolError .invalidPayloadEncoding)], [], none, none, some .invalidPayloadEncoding⟩ := by decide

/-- S8: an orphan Continuation is consumed; P1 step 4: the terminating Continuation emits the pending type. -/
theorem test_S8_P1_continuation :
    rowOf (step (block 64 [0x00, 0x01, 0x6F] .dec)) =
      some ⟨[.dec (.protocolError .unexpectedContinuationFrame)], [], none, none,
        some .unexpectedContinuationFrame⟩ ∧
    rowOf (step (blockAcc 64 [0, 3, 0x6C, 0x6C, 0x6F, 5, 2, 1, 2, 4] .text [0x48, 0x65] .dec)) =
      some ⟨[.dec (.message 4#4 (bs [0x48, 0x65, 0x6C, 0x6C, 0x6F]) true)], bs [5, 2, 1, 2, 4], none, none,
        none⟩ := by decide

/-- V114: the append has happened when the whole buffer is found invalid. V80c: a finite ACC_CAP; the frame is
consumed, the buffer is kept. -/
theorem test_V114_V80c_continuation :
    rowOf (step (block 64 [0x84, 2, 0xE2, 0x82, 0, 1, 0x41] .dec)) =
      some ⟨[.dec (.protocolError .invalidPayloadEncoding)], [], some .text, some (bs [0xE2, 0x82, 0x41]),
        some .invalidPayloadEncoding⟩ ∧
    (let s := blockAcc 64 [0x80, 2, 0x63, 0x64] .text [0x61, 0x62] .dec
     rowOf (step { s with cfg := { s.cfg with accCap := some 3 } })) =
      some ⟨[.dec (.protocolError .accOverflow)], [], some .text, some (bs [0x61, 0x62]), some .accOverflow⟩ := by
  decide

/-- R114's and R116's examples. -/
theorem test_R114_close :
    rowOf (step (block 64 [0x01, 0x02, 0x03, 0xE8] .dec)) =
      some ⟨[.dec (.message 1#4 (bs [3, 0xE8]) true)], [], none, none, none⟩ := by decide

theorem test_R116_pong :
    rowOf (step (block 64 [0x03, 0x83, 1, 2, 3, 4, 0x60, 0x60, 0x60] .dec)) =
      some ⟨[.dec (.message 3#4 (bs [0x61, 0x62, 0x63]) true)], [], none, none, none⟩ := by decide

/-- V117: DEC under a latched fault inspects nothing. -/
theorem test_V117_latched :
    rowOf (step { block 64 [0x04, 1, 0x78] .dec with fault := some .invalidPayloadEncoding }) =
      some ⟨[.dec (.protocolError .invalidPayloadEncoding)], bs [4, 1, 0x78], none, none,
        some .invalidPayloadEncoding⟩ := by decide

/-! ## The other host operations -/

/-- V118, V119: RESET clears everything. -/
theorem test_V119_reset :
    rowOf (step { blockAcc 64 [0x05, 0x09] .text [0x61] .reset with fault := some .tooLong }) =
      some ⟨[], [], none, none, none⟩ := by decide

/-- V120: the second push does not fit and is refused whole. -/
theorem test_V120_push_refused :
    (let s := block 64 [4, 5, 0x48] (.rxPush (bs [0x65, 0x6C]))
     rowOf (step { s with cfg := { s.cfg with rxCap := some 4 } })) =
      some ⟨[.pushRefused], bs [4, 5, 0x48], none, none, none⟩ := by decide

/-- A push that exactly fills RXBUF_CAP is accepted; it is accepted while `fault` is set (R142). -/
theorem test_push_accepted :
    (let s := block 64 [4, 5] (.rxPush (bs [0x65, 0x6C]))
     rowOf (step { s with cfg := { s.cfg with rxCap := some 4 }, fault := some .tooLong })) =
      some ⟨[.pushAccepted], bs [4, 5, 0x65, 0x6C], none, none, some .tooLong⟩ := by decide

/-- V49, V49o: ENC.TEXT masked, while `fault` is set. -/
theorem test_V49_enc_text :
    txOf (step { block 64 [] (.enc 4#4 (bs [0x48, 0x65, 0x6C, 0x6C, 0x6F]) true (key 0x37 0xFA 0x21 0x3D)) with
        fault := some .tooLong }) =
      some (bs [4, 0x85, 0x37, 0xFA, 0x21, 0x3D, 0x7F, 0x9F, 0x4D, 0x51, 0x58],
        [.enc (.frame (bs [4, 0x85, 0x37, 0xFA, 0x21, 0x3D, 0x7F, 0x9F, 0x4D, 0x51, 0x58]))]) := by decide

theorem test_V49d_enc_binary :
    (txOf (step (block 64 [] (.enc 5#4 (bs [0, 0xFF, 0x80, 0x7F, 1]) true (key 255 255 255 255))))).map Prod.fst =
      some (bs [5, 0x85, 255, 255, 255, 255, 0xFF, 0, 0x7F, 0x80, 0xFE]) := by decide

theorem test_V49f_enc_close :
    (txOf (step (block 64 [] (.enc 1#4 (bs [3, 0xE8]) false (key 9 9 9 9))))).map Prod.fst =
      some (bs [1, 2, 3, 0xE8]) := by decide

theorem test_V49g_enc_ping :
    (txOf (step (block 64 [] (.enc 2#4 [] false (key 9 9 9 9))))).map Prod.fst = some (bs [2, 0]) := by decide

theorem test_V49i_enc_pong :
    (txOf (step (block 64 [] (.enc 3#4 (bs [0x61, 0x62, 0x63]) true (key 1 2 3 4))))).map Prod.fst =
      some (bs [3, 0x83, 1, 2, 3, 4, 0x60, 0x60, 0x60]) := by decide

/-- V49j, V49k: the unsupported types emit nothing and latch nothing. -/
theorem test_V49j_V49k_enc_illegal :
    txOf (step (block 64 [] (.enc 0#4 (bs [0x6C]) false (key 0 0 0 0)))) =
      some ([], [.enc (.error .unknownFrameType)]) ∧
    txOf (step (block 64 [] (.enc 6#4 [] false (key 0 0 0 0)))) = some ([], [.enc (.error .unknownFrameType)]) ∧
    txOf (step (block 64 [] (.enc 15#4 [] true (key 0 0 0 0)))) = some ([], [.enc (.error .unknownFrameType)]) := by
  decide

/-- S5: FRAG(TEXT, "He", "ll", "o") is the eleven bytes of the three frames. -/
theorem test_S5_frag :
    rowOf (step { State.reset with
        ops := [.bench (.frag .text [⟨bs [0x48, 0x65], none⟩, ⟨bs [0x6C, 0x6C], none⟩, ⟨bs [0x6F], none⟩])] }) =
      some ⟨[.pushAccepted], bs [0x84, 2, 0x48, 0x65, 0x80, 2, 0x6C, 0x6C, 0, 1, 0x6F], none, none, none⟩ := by decide

/-- V113's two frames: each fragment has its own mask. -/
theorem test_V113_frag_masked :
    fragExpand false .text [⟨bs [0x48, 0x65], some (key 0xA1 0xB2 0xC3 0xD4)⟩,
        ⟨bs [0x6C, 0x6C, 0x6F], some (key 0 255 0 255)⟩] =
      some (bs [0x84, 0x82, 0xA1, 0xB2, 0xC3, 0xD4, 0xE9, 0xD7, 0, 0x83, 0, 255, 0, 255, 0x6C, 0x93, 0x6F]) := by decide

/-- V122, V123: STATUS after V92, and after reset. -/
theorem test_V122_V123_status :
    status { blockAcc 64 [5, 9] .text [0x61] .dec with fault := some .dataFrameInsteadContinuation } =
      ⟨6, true, 4#4, 2, 1⟩ ∧
    status State.reset = ⟨0, false, 0#4, 0, 0⟩ := by decide

/-- With no request pending the block waits (R191). -/
theorem test_idle : rowOf (step State.reset) = some ⟨[], [], none, none, none⟩ := by decide

/-! ## Witnesses: what meets the hypotheses of each obligation, clause by clause -/

/-- A configured block with no request pending. -/
def idle (rx : List Nat) : State := { State.reset with cfg := { Config.default with maxFs := 139 }, rx := bs rx }

/-- The same, Accumulating. -/
def accum (rx : List Nat) (t : DataType) (acc : List Nat) : State :=
  { idle rx with pend := some t, acc := some (bs acc) }

/-- The same with a finite ACC_CAP. -/
def capped (c : Nat) (s : State) : State := { s with cfg := { s.cfg with accCap := some c } }

/-- The same under HIGHLEN_POLICY Reject. -/
def reject (s : State) : State := { s with cfg := { s.cfg with highLen := .reject } }

/-- What a frame of the given bytes needs at the cursor. -/
theorem frameHere_iff {b0 : Byte} {m : Bool} {h L : Nat} {s : State} : FrameHere b0 m h L s ↔
    s.rx.head? = some b0 ∧ decodeLength s.cfg.highLen s.rx = .len h m L ∧ h + keyBytes m + L ≤ s.cfg.maxFs ∧
      h + keyBytes m + L ≤ s.rx.length :=
  ⟨fun ⟨a, b, c, d⟩ => ⟨a, b, c, d⟩, fun ⟨a, b, c, d⟩ => ⟨a, b, c, d⟩⟩

theorem headerAllowed_iff {b0 : Byte} {t : FrameType} {s : State} : HeaderAllowed b0 t s ↔
    frameRow b0 = .frame t ∧ ¬ (moreOf s.cfg.finPolicy b0 = true ∧ isControl t = true) ∧
      ¬ (isData t = true ∧ s.pend.isSome = true) :=
  ⟨fun ⟨a, b, c⟩ => ⟨a, b, c⟩, fun ⟨a, b, c⟩ => ⟨a, b, c⟩⟩

theorem witness_DecodeEncodeRoundTrip :
    (Instr.len7 true 125#7).wellFormed = true ∧
    (Instr.frag .binary [⟨[], none⟩, ⟨bs [1], some (key 1 2 3 4)⟩]).wellFormed = true ∧
    (Instr.encText (bs [0x48]) true (key 1 2 3 4)).wellFormed = true := by decide

theorem witness_StepRunsDecodedInstruction :
    ((block 64 [4, 0] .dec).ops = [.host .dec] ∧ (block 64 [4, 0] .dec).fault = none ∧
      (block 64 [4, 0] .dec).rx = [0x04#8, 0x00#8]) ∧
    ((block 64 [4] .dec).ops = [.host .dec] ∧ (block 64 [4] .dec).rx.length < 2) ∧
    ((block 64 [] .reset).ops = [.host .reset] ∧ HostOp.reset ≠ .dec) ∧ State.reset.ops = [] := by decide

theorem witness_StepRunsDecodedInstruction_bench :
    (∃ s : State, s.ops = [.bench (.lenByte 0x7E#8)]) ∧ (∃ s : State, s.ops = [.bench (.frag .text [])]) ∧
    (∃ s : State, s.ops = [.host .dec] ∧ s.fault ≠ none) :=
  ⟨⟨{ idle [] with ops := [.bench (.lenByte 0x7E#8)] }, rfl⟩, ⟨{ idle [] with ops := [.bench (.frag .text [])] }, rfl⟩,
    ⟨{ block 64 [] .dec with fault := some .tooLong }, rfl, by decide⟩⟩

theorem witness_DecRunsFrameAtCursor : (idle [0x1F, 0x00]).rx = [0x1F#8, 0x00#8] := by decide

theorem witness_DecodeSideCompletes :
    decodeSide .dec = true ∧ decodeSide (.frameCont true false 0#7) = true ∧ (accum [] .text []).coherent = true := by
  decide

theorem witness_ResetLeavesThePorts : ∃ t, exec .reset (accum [4] .text []) = .next t := ⟨_, rfl⟩

theorem witness_StepKeepsInvariant :
    (blockAcc 64 [0, 0] .text [] .dec).Inv ∧ ∃ t, step (blockAcc 64 [0, 0] .text [] .dec) = .next t :=
  ⟨⟨rfl, rfl, rfl, rfl⟩, _, rfl⟩

theorem witness_CoherencePreserved :
    (accum [0, 0] .text []).coherent = true ∧ ∃ t, exec (.frameCont false false 0#7) (accum [0, 0] .text []) = .next t :=
  ⟨rfl, _, rfl⟩

theorem witness_CoherentStatesNeverFault : (accum [0, 0] .text []).coherent = true := by decide

theorem witness_ConfigurationNeverWritten : ∃ t, exec .dec (idle [4, 0]) = .next t := ⟨_, rfl⟩

theorem witness_LatchedFaultRepeats : ({ idle [4, 0] with fault := some .tooLong } : State).fault = some .tooLong := by
  decide

theorem witness_OnlyResetClearsFault :
    (∃ t, exec .reset { idle [4, 0] with fault := some .tooLong } = .next t ∧ t.fault = none) ∧
    (∃ t, exec .dec { idle [4, 0] with fault := some .tooLong } = .next t ∧ t.fault = some .tooLong) :=
  ⟨⟨_, rfl, rfl⟩, ⟨_, rfl, rfl⟩⟩

theorem witness_LatchSetExactlyOnError :
    (idle [6, 0]).fault = none ∧ (∃ t, exec .dec (idle [6, 0]) = .next t ∧ t.fault = some .unknownOpcode) ∧
    ∃ t, exec .dec (idle [4, 0]) = .next t ∧ t.fault = none :=
  ⟨rfl, ⟨_, rfl, rfl⟩, ⟨_, rfl, rfl⟩⟩

theorem witness_ShortBufferIncomplete : (idle [0x24]).fault = none ∧ (idle [0x24]).rx.length < 2 := by decide

theorem witness_ReservedBitRaises :
    (idle [0x1F, 0]).rx = [0x1F#8, 0x00#8] ∧ 0x1F#8 &&& 0x70#8 ≠ 0#8 ∧ (idle [0x1F, 0]).fault = none := by decide

theorem witness_UnknownOpcodeRaises :
    (idle [6, 0]).rx = [0x06#8, 0x00#8] ∧ 0x06#8 &&& 0x70#8 = 0#8 ∧ 6 ≤ (0x06#8 &&& 0x0F#8).toNat ∧
    6 ≤ (0x8F#8 &&& 0x0F#8).toNat ∧ (idle [6, 0]).fault = none := by decide

theorem witness_IllegalRowsTakeTheirException : State.reset.fault = none := by decide

theorem witness_FragmentedControlRaises :
    (idle [0x82, 0]).rx = [0x82#8, 0x00#8] ∧ 0x82#8 ∈ [0x81#8, 0x82#8, 0x83#8] ∧
    (idle [0x82, 0]).cfg.finPolicy = false ∧ (idle [0x82, 0]).fault = none := by decide

theorem witness_DataFrameWhilePendingRaises :
    ((accum [5, 9] .text [0x61]).rx = [0x05#8, 0x09#8] ∧ 0x05#8 ∈ [0x04#8, 0x84#8, 0x05#8, 0x85#8] ∧
      (accum [5, 9] .text [0x61]).pend.isSome = true ∧ (accum [5, 9] .text [0x61]).fault = none) ∧
    ((accum [0x80, 9] .text [0x61]).rx = [0x80#8, 0x09#8] ∧
      0x80#8 ∈ [0x00#8, 0x80#8, 0x01#8, 0x02#8, 0x03#8]) := by decide

theorem witness_ControlPayloadTooLongRaises :
    HeaderAllowed 0x02#8 .ping (idle [2, 0x7E, 0, 0x7E]) ∧ (idle [2, 0x7E, 0, 0x7E]).fault = none ∧
    decodeLength .truncate (idle [2, 0x7E]).rx = .needMore ∧
    decodeLength .reject (idle [2, 0x7F, 0, 0, 0, 1, 0, 0, 0, 0]).rx = .bad .lengthRangeUnsupported ∧
    decodeLength .truncate (idle [2, 0x7E, 0, 0x7E]).rx = .len 4 false 126 ∧
    decodeLength .truncate (idle [2, 0x7D]).rx = .len 2 false 125 := by
  rw [headerAllowed_iff]; decide

theorem witness_TooLongOrIncomplete :
    HeaderAllowed 0x05#8 .binary (block 10 [5, 9] .dec) ∧ (block 10 [5, 9] .dec).fault = none ∧
    decodeLength .truncate (block 10 [5, 9] .dec).rx = .len 2 false 9 ∧ isControl .binary = false ∧
    (block 10 [5, 9] .dec).cfg.maxFs < 2 + keyBytes false + 9 ∧
    decodeLength .truncate (block 10 [5, 8] .dec).rx = .len 2 false 8 ∧
    2 + keyBytes false + 8 ≤ (block 10 [5, 8] .dec).cfg.maxFs ∧
    (block 10 [5, 8] .dec).rx.length < 2 + keyBytes false + 8 := by
  rw [headerAllowed_iff]; decide

theorem witness_IncompleteExtendedLength :
    (len7Of 0x7E#8 = 126#7 ∧ (idle [2, 0x7E, 0]).rx.length < 4) ∧
    (len7Of 0xFF#8 = 127#7 ∧ (idle [2, 0xFF, 0, 0, 0, 0, 0, 0, 0]).rx.length < 10) ∧
    HeaderAllowed 0x02#8 .ping (idle [2, 0x7E, 0]) ∧ (idle [2, 0x7E, 0]).fault = none := by
  rw [headerAllowed_iff]; decide

theorem witness_ControlFramesAreMessages :
    (idle [1, 0]).cfg.finPolicy = false ∧ (idle [1, 0]).fault = none ∧ FrameHere 0x01#8 false 2 0 (idle [1, 0]) ∧
    FrameHere 0x02#8 true 4 1 (idle [2, 0xFE, 0, 1, 9, 9, 9, 9, 0x70]) := by
  simp only [frameHere_iff]; decide

theorem witness_ControlFramesAreMessages_125 :
    FrameHere 0x03#8 false 2 125 (idle ([3, 125] ++ List.replicate 125 0)) :=
  ⟨rfl, rfl, by decide, by simp [idle, bs, keyBytes]⟩

theorem witness_TextFrame :
    (FrameHere 0x04#8 false 2 1 (idle [4, 1, 0x48]) ∧ utf8Valid (idle [4, 1, 0x48]).cfg.utf8 (payload false 2 1 (idle [4, 1, 0x48])) = true) ∧
    (FrameHere 0x04#8 false 2 1 (idle [4, 1, 0x80]) ∧ utf8Valid (idle [4, 1, 0x80]).cfg.utf8 (payload false 2 1 (idle [4, 1, 0x80])) = false) ∧
    (FrameHere 0x84#8 false 2 1 (capped 1 (idle [0x84, 1, 0x80])) ∧
      fitsCap (some 1) (payload false 2 1 (capped 1 (idle [0x84, 1, 0x80]))).length = true) ∧
    (idle [4, 1, 0x48]).cfg.finPolicy = false ∧ (idle [4, 1, 0x48]).fault = none ∧ (idle [4, 1, 0x48]).pend = none ∧
    (accum [] .text []).pend.isSome = true := by
  simp only [frameHere_iff]; decide

theorem witness_BinaryFrame :
    FrameHere 0x05#8 false 2 1 (idle [5, 1, 0x80]) ∧
    (FrameHere 0x85#8 false 2 1 (capped 1 (idle [0x85, 1, 0x80])) ∧
      fitsCap (some 1) (payload false 2 1 (capped 1 (idle [0x85, 1, 0x80]))).length = true) ∧
    (idle [5, 1, 0x80]).cfg.finPolicy = false ∧ (idle [5, 1, 0x80]).fault = none ∧ (idle [5, 1, 0x80]).pend = none ∧
    (accum [] .binary []).pend.isSome = true := by
  simp only [frameHere_iff]; decide

theorem witness_ContinuationFrame :
    FrameHere 0x00#8 false 2 0 (idle [0, 0]) ∧ (idle [0, 0]).pend = none ∧
    (FrameHere 0x80#8 false 2 1 (capped 2 (accum [0x80, 1, 0x62] .text [0x61])) ∧
      fitsCap (some 2) (bs [0x61] ++ payload false 2 1 (capped 2 (accum [0x80, 1, 0x62] .text [0x61]))).length = true) ∧
    (FrameHere 0x00#8 false 2 1 (accum [0, 1, 0xAC] .text [0xE2, 0x82]) ∧
      utf8Valid (accum [0, 1, 0xAC] .text [0xE2, 0x82]).cfg.utf8
        (bs [0xE2, 0x82] ++ payload false 2 1 (accum [0, 1, 0xAC] .text [0xE2, 0x82])) = true) ∧
    (FrameHere 0x00#8 false 2 1 (accum [0, 1, 0x41] .text [0xE2, 0x82]) ∧
      utf8Valid (accum [0, 1, 0x41] .text [0xE2, 0x82]).cfg.utf8
        (bs [0xE2, 0x82] ++ payload false 2 1 (accum [0, 1, 0x41] .text [0xE2, 0x82])) = false) ∧
    (accum [0, 1, 0x41] .text [0xE2, 0x82]).pend = some .text ∧
    (accum [0, 1, 0x41] .text [0xE2, 0x82]).acc = some (bs [0xE2, 0x82]) := by
  simp only [frameHere_iff]; decide

theorem witness_ContinuationFrame_partial :
    (idle [0, 2, 1]).rx = [0x00#8, 0x02#8, 0x01#8] ∧ (idle [0, 2, 1]).fault = none ∧
    decodeLength .truncate (idle [0, 2, 1]).rx = .len 2 false 2 ∧
    2 + keyBytes false + 2 ≤ (idle [0, 2, 1]).cfg.maxFs ∧ (idle [0, 2, 1]).rx.length < 2 + keyBytes false + 2 := by
  decide

theorem witness_AccOverflowRaises :
    (FrameHere 0x84#8 false 2 1 (capped 0 (idle [0x84, 1, 0x61])) ∧ (capped 0 (idle [0x84, 1, 0x61])).pend = none ∧
      0 < (payload false 2 1 (capped 0 (idle [0x84, 1, 0x61]))).length) ∧
    (FrameHere 0x00#8 false 2 1 (capped 1 (accum [0, 1, 0x62] .text [0x61])) ∧
      (capped 1 (accum [0, 1, 0x62] .text [0x61])).cfg.accCap = some 1 ∧
      1 < (bs [0x61] ++ payload false 2 1 (capped 1 (accum [0, 1, 0x62] .text [0x61]))).length) := by
  simp only [frameHere_iff]; decide

theorem witness_AccOverflowRaises_unbounded :
    (idle [4, 1, 0x80]).cfg.accCap = none ∧ (idle [4, 1, 0x80]).fault ≠ some .accOverflow ∧
    ∃ t, exec .dec (idle [4, 1, 0x80]) = .next t :=
  ⟨rfl, by decide, _, rfl⟩

theorem witness_FrameRowsComplete :
    Buffered false 1#7 2 1 (accum [0, 1, 0xAC] .text [0xE2, 0x82]) ∧
    (accum [0, 1, 0xAC] .text [0xE2, 0x82]).cfg.finPolicy = false ∧
    (accum [0, 1, 0xAC] .text [0xE2, 0x82]).fault = none ∧
    (accum [0, 1, 0xAC] .text [0xE2, 0x82]).pend = some .text ∧
    (accum [0, 1, 0xAC] .text [0xE2, 0x82]).acc = some (bs [0xE2, 0x82]) ∧
    fitsCap none (bs [0xE2, 0x82] ++ payload false 2 1 (accum [0, 1, 0xAC] .text [0xE2, 0x82])).length = true ∧
    utf8Valid (accum [0, 1, 0xAC] .text [0xE2, 0x82]).cfg.utf8
        (bs [0xE2, 0x82] ++ payload false 2 1 (accum [0, 1, 0xAC] .text [0xE2, 0x82])) = true :=
  ⟨⟨by decide, by decide, by decide⟩, by decide⟩

theorem witness_FrameRowsComplete_idle :
    Buffered false 1#7 2 1 (idle [4, 1, 0x48]) ∧ (idle [4, 1, 0x48]).pend = none ∧
    utf8Valid (idle [4, 1, 0x48]).cfg.utf8 (payload false 2 1 (idle [4, 1, 0x48])) = true ∧
    Buffered false 125#7 2 125 (idle ([1, 125] ++ List.replicate 125 0)) :=
  ⟨⟨rfl, by decide, by decide⟩, by decide, by decide, rfl, by decide, by simp [idle, bs, keyBytes]⟩

theorem witness_LengthDecoding :
    (len7Of 0xFD#8).toNat ≤ 125 ∧ len7Of 0xFE#8 = 126#7 ∧ len7Of 0x7F#8 = 127#7 ∧
    (HighLenPolicy.reject = .reject ∧ ¬ ((0#8 : Byte) = 0#8 ∧ (0#8 : Byte) = 0#8 ∧ (0#8 : Byte) = 0#8 ∧
      (1#8 : Byte) = 0#8)) ∧ HighLenPolicy.truncate = .truncate := by decide

theorem witness_LengthRowsComplete :
    (125#7 : BitVec 7).toNat ≤ 125 ∧ (idle [5, 0x7E, 1, 0]).rx = [0x05#8, 0x7E#8, 0x01#8, 0x00#8] ∧
    (idle [5, 0x7F, 0, 0, 0, 1, 0, 0, 0, 2]).rx = bs [5, 0x7F, 0, 0, 0, 1, 0, 0, 0, 2] ∧
    (idle [5, 0x7F, 0, 0, 0, 1, 0, 0, 0, 2]).cfg.highLen = .truncate ∧ (idle [5, 0x7E, 1]).rx.length < 4 ∧
    (idle [5, 0x7F, 0, 0, 0, 1, 0, 0, 0]).rx.length < 10 := by decide

theorem witness_EncodeLengthForms :
    125 ≤ 125 ∧ (126 ≤ 126 ∧ 126 < 65536) ∧ (126 ≤ 65535 ∧ 65535 < 65536) ∧ (65536 ≤ 65536 ∧ 65536 < 4294967296) ∧
    (65536 ≤ 4294967295 ∧ 4294967295 < 4294967296) := by decide

theorem witness_HugePayloadRefused : 4294967296 ≤ huge.length := by rw [huge_length]

theorem witness_HugeUnsupportedRefused : 4294967296 ≤ huge.length := by rw [huge_length]

theorem witness_DecodeLengthOfEncodeLength :
    (∃ enc, encodeLength 125 (maskValue true) = some enc) ∧ (∃ enc, encodeLength 126 (maskValue false) = some enc) ∧
    ∃ enc, encodeLength 4294967295 (maskValue true) = some enc :=
  ⟨⟨_, rfl⟩, ⟨_, rfl⟩, ⟨_, rfl⟩⟩

theorem witness_MaskIsXorWithKey : (bs [1, 2, 3, 4, 5])[4]? = some 5#8 := by decide

theorem witness_PayloadExtraction :
    (2 + 1 ≤ (bs [4, 1, 0x48]).length ∧ 0 < 1 ∧ (bs [4, 1, 0x48])[2 + 0]? = some 0x48#8) ∧
    (2 + 4 + 5 ≤ (bs [4, 0x85, 0x37, 0xFA, 0x21, 0x3D, 0x7F, 0x9F, 0x4D, 0x51, 0x58]).length ∧ 4 < 5 ∧
      (bs [4, 0x85, 0x37, 0xFA, 0x21, 0x3D, 0x7F, 0x9F, 0x4D, 0x51, 0x58])[2 + 4 + 4]? = some 0x58#8 ∧
      (bs [4, 0x85, 0x37, 0xFA, 0x21, 0x3D, 0x7F, 0x9F, 0x4D, 0x51, 0x58])[2 + 4 % 4]? = some 0x37#8) := by decide

theorem witness_EncodeOperations : (bs [0x48]).length < 4294967296 ∧ State.reset.cfg.finPolicy = false := by decide

theorem witness_UnsupportedTypes : (bs [0x6C]).length < 4294967296 := by decide

theorem witness_EncoderOutputLength :
    Instr.encPing [] true (key 1 2 3 4) ∈ [Instr.encClose [] true (key 1 2 3 4), .encPing [] true (key 1 2 3 4),
      .encPong [] true (key 1 2 3 4), .encText [] true (key 1 2 3 4), .encBinary [] true (key 1 2 3 4)] ∧
    ∃ t, exec (.encPing [] true (key 1 2 3 4)) State.reset = .next t :=
  ⟨by decide, _, rfl⟩

theorem witness_EncoderIsPure :
    encodeSide (.encText (bs [0x48]) false (key 0 0 0 0)) = true ∧
    State.reset.cfg.finPolicy = (accum [4] .text []).cfg.finPolicy ∧
    (∃ t, exec (.encText (bs [0x48]) false (key 0 0 0 0)) State.reset = .next t) ∧
    ∃ t, exec (.encIllegal0 [] false (key 0 0 0 0)) State.reset = .next t :=
  ⟨rfl, rfl, ⟨_, rfl⟩, ⟨_, rfl⟩⟩

theorem witness_EncodeThenDecode :
    (∃ t, exec (.encPing (bs [0x70]) true (key 1 2 3 4)) State.reset = .next t ∧
      t.out = [.enc (.frame t.tx)] ∧ t.tx.length = 7) ∧
    7 ≤ (idle []).cfg.maxFs ∧ (isControl .ping = true ∧ (bs [0x70]).length ≤ 125) ∧
    (idle []).fault = none ∧ (idle []).pend = none ∧ (idle []).rx = [] ∧ (idle []).cfg.finPolicy = false ∧
    (idle []).cfg.rxCap = none ∧ State.reset.cfg.finPolicy = false ∧ utf8Valid (idle []).cfg.utf8 (bs [0x48]) = true :=
  ⟨⟨_, rfl, by decide, by decide⟩, by decide⟩

theorem witness_PushAppendsOrIsRefused :
    (idle []).cfg.rxCap = none ∧ (bs [4, 5]).length + (bs [1, 2]).length ≤ 4 ∧
    3 < (bs [4, 5]).length + (bs [1, 2]).length := by decide

theorem witness_FragExpandsAndPushes :
    (Instr.frag .text ((⟨bs [0x48], none⟩ : FragPart) :: ([] ++ [⟨[], none⟩]))).wellFormed = true ∧
    (idle []).cfg.finPolicy = false := by decide

theorem witness_FragDecodesToOneMessage :
    (Instr.frag .text [⟨bs [0xE2, 0x82], none⟩, ⟨bs [0xAC], some (key 1 2 3 4)⟩]).wellFormed = true ∧
    (idle []).cfg.finPolicy = false ∧ (idle []).cfg.rxCap = none ∧ (idle []).cfg.accCap = none ∧
    2 + 14 ≤ (idle []).cfg.maxFs ∧ (idle []).fault = none ∧ (idle []).pend = none ∧ (idle []).acc = none ∧
    (idle []).rx = [] ∧ utf8Valid (idle []).cfg.utf8 (bs [0xE2, 0x82, 0xAC]) = true := by decide

theorem witness_DecodeSideFrame : decodeSide .dec = true ∧ ∃ t, exec .dec (idle [4, 0, 5]) = .next t := ⟨rfl, _, rfl⟩

theorem witness_WhoWritesRx :
    (∃ t, exec (.len7 false 0#7) (idle [4, 0]) = .next t) ∧ (∃ t, exec (.rxPush (bs [1])) (idle [4]) = .next t) ∧
    (∃ t, exec (.frag .text [⟨[], none⟩, ⟨[], none⟩]) (idle []) = .next t) ∧
    (∃ t, exec .dec (idle [4, 0]) = .next t) ∧ (∃ t, exec .reset (idle [4]) = .next t) ∧
    lengthRow (.len7 false 0#7) = true ∧ encodeSide (.encPong [] false (key 0 0 0 0)) = true :=
  ⟨⟨_, rfl⟩, ⟨_, rfl⟩, ⟨_, rfl⟩, ⟨_, rfl⟩, ⟨_, rfl⟩, rfl, rfl⟩

theorem witness_OnlyDecodeAndResetMoveTheReassembler :
    decodeSide (.rxPush (bs [1])) = false ∧ Instr.rxPush (bs [1]) ≠ .reset ∧
    ∃ t, exec (.rxPush (bs [1])) (accum [] .text []) = .next t :=
  ⟨rfl, by decide, _, rfl⟩

/-- A DEC that absorbs a fragment and then answers Incomplete on one residual byte. -/
theorem witness_IncompleteIsStable :
    ∃ t, exec .dec (idle [0x84, 1, 0x61, 0x80]) = .next t ∧
      t.out = (idle [0x84, 1, 0x61, 0x80]).out ++ [.dec .incomplete] ∧ t.rx = bs [0x80] :=
  ⟨_, rfl, by decide, by decide⟩

theorem witness_ChunkingDoesNotMatter :
    (idle [0x84, 1, 0x61, 0x80]).coherent = true ∧ ∃ t, exec .dec (idle [0x84, 1, 0x61, 0x80]) = .next t ∧
      t.out = (idle [0x84, 1, 0x61, 0x80]).out ++ [.dec .incomplete] :=
  ⟨rfl, _, rfl, by decide⟩

theorem witness_ProperPrefixIsIncomplete :
    serialize false true FrameType.text.opcode (some (key 1 2 3 4)) (bs [0x61]) =
      some (bs [0x84, 0x81, 1, 2, 3, 4, 0x60]) ∧
    HeaderAllowed 0x84#8 .text (idle [0x84, 0x81, 1, 2, 3, 4]) ∧
    (bs [0x84, 0x81, 1, 2, 3, 4, 0x60]).head? = some 0x84#8 ∧
    (bs [0x84, 0x81, 1, 2, 3, 4, 0x60]).length ≤ (idle []).cfg.maxFs ∧ 6 < 7 ∧
    (idle [0x84, 0x81, 1, 2, 3, 4]).rx = (bs [0x84, 0x81, 1, 2, 3, 4, 0x60]).take 6 ∧
    (idle [0x84, 0x81, 1, 2, 3, 4]).fault = none ∧ (idle []).cfg.finPolicy = false ∧ isControl .text = false := by
  rw [headerAllowed_iff]; decide

theorem witness_ParseVerdictIsStable :
    refParseFrame (idle [4, 0]) ≠ .needMore ∧ refParseFrame (idle [0x24, 0]) ≠ .needMore := by decide

theorem witness_DecDependsOnTheBlockOnly :
    (idle [4, 0]).sameBlock { idle [4, 0] with tx := bs [1], ops := [.host .dec] } ∧
    ∃ t, exec .dec (idle [4, 0]) = .next t :=
  ⟨⟨rfl, rfl, rfl, rfl, rfl⟩, _, rfl⟩

theorem witness_ReturnedMessagesAreChecked :
    (∃ t, exec .dec (idle [4, 1, 0x48]) = .next t ∧
      t.out = (idle [4, 1, 0x48]).out ++ [.dec (.message 4#4 (bs [0x48]) true)]) ∧
    ∃ t, exec .dec (idle [2, 0]) = .next t ∧ t.out = (idle [2, 0]).out ++ [.dec (.message 2#4 [] true)] :=
  ⟨⟨_, rfl, by decide⟩, ⟨_, rfl, by decide⟩⟩

theorem witness_StatusView :
    (idle []).fault = none ∧ ({ idle [] with fault := some .accOverflow } : State).fault = some .accOverflow ∧
    (idle []).pend = none ∧ (accum [] .text []).pend = some .text ∧ (accum [] .binary []).pend = some .binary ∧
    (idle []).acc = none ∧ (accum [] .text [1]).acc = some (bs [1]) := by decide

end Sys2Proof.Tests
end

section
/-! PROOFS. The family of 10_state: reset, the status view, the coherence of the fragmentation state, who writes `rx`,
the purity of the encoder and the stability of Incomplete. The lemmas about the model's operations come first. -/

namespace Sys2Proof.Machine

open Sys2Proof.Claims

/-! ## The status view -/

theorem status_faultCode_some {s : State} {k : ErrKind} (h : s.fault = some k) :
    (status s).faultCode = errCode k := by
  simp [status, h]

theorem errCode_mem_range (k : ErrKind) : 1 ≤ errCode k ∧ errCode k ≤ 11 := by
  cases k <;> decide

/-- The table of R170, read by the numeric code, gives the kind back. -/
theorem errKinds_at_errCode (k : ErrKind) :
    [ErrKind.unknownFrameType, .unknownOpcode, .reservedBitUsed, .fragmentedControlFrame,
      .controlFramePayloadTooLong, .dataFrameInsteadContinuation, .unexpectedContinuationFrame,
      .invalidPayloadEncoding, .tooLong, .lengthRangeUnsupported, .accOverflow][errCode k - 1]? = some k := by
  cases k <;> rfl

theorem fragActive_iff (s : State) : fragActive s = true ↔ s.pend ≠ none := by
  simp [fragActive, Option.isSome_iff_ne_none]

/-! ## RESET, RX.PUSH and FRAG -/

theorem exec_reset (s : State) : exec .reset s = .next (retire (clearState s)) := rfl

theorem exec_rxPush (bytes : List Byte) (s : State) : exec (.rxPush bytes) s = .next (pushBytes bytes s) := rfl

theorem exec_frag_next {ty : DataType} {parts : List FragPart} {s t : State}
    (h : exec (.frag ty parts) s = .next t) : ∃ bytes, t = pushBytes bytes s := by
  simp only [exec, execFrag] at h
  split at h
  next bytes _ => cases h; exact ⟨bytes, rfl⟩
  · cases h

theorem pushBytes_rx (bytes : List Byte) (s : State) :
    (pushBytes bytes s).rx = s.rx ++ bytes ∨ (pushBytes bytes s).rx = s.rx := by
  obtain ⟨-, h⟩ | ⟨-, h⟩ := pushBytes_cases bytes s
  · exact .inl (by simp [h])
  · exact .inr (by simp [h])

/-! ## The encoder -/

@[simp] theorem emitTx_nil (s : State) : emitTx [] s = s := by simp [emitTx]

/-- Every ENC row is the general rule ENC on operands that do not depend on the state (R150). -/
theorem exec_encodeSide {i : Instr} (hi : encodeSide i = true) :
    ∃ ty p e k, ∀ s, exec i s = encGeneral ty p e k s := by
  cases i with
  | encClose p e k => exact ⟨1#4, p, e, k, fun _ => rfl⟩
  | encPing p e k => exact ⟨2#4, p, e, k, fun _ => rfl⟩
  | encPong p e k => exact ⟨3#4, p, e, k, fun _ => rfl⟩
  | encText p e k => exact ⟨4#4, p, e, k, fun _ => rfl⟩
  | encBinary p e k => exact ⟨5#4, p, e, k, fun _ => rfl⟩
  | encIllegal0 p e k => exact ⟨0#4, p, e, k, fun _ => rfl⟩
  | encIllegal6to7 x p e k => exact ⟨3#3 ++ x, p, e, k, fun _ => rfl⟩
  | encIllegal8to15 x p e k => exact ⟨1#1 ++ x, p, e, k, fun _ => rfl⟩
  | _ => simp [encodeSide] at hi

/-- ENC emits some bytes and one response, and does the same in every state with the same FIN_POLICY (R19). An error
answer is the emission of no byte. -/
theorem encGeneral_congr {ty : BitVec 4} {p : List Byte} {e : Bool} {k : Key} {s s' t : State}
    (hfin : s.cfg.finPolicy = s'.cfg.finPolicy) (h : encGeneral ty p e k s = .next t) :
    ∃ bytes r, t = respond r (emitTx bytes s) ∧
      encGeneral ty p e k s' = .next (respond r (emitTx bytes s')) := by
  unfold encGeneral at h ⊢
  rw [← hfin]
  split at h
  next hp =>
    rw [if_pos hp]
    cases hty : typeToOpcode ty with
    | error k =>
      rw [hty] at h; cases h
      exact ⟨[], .enc (.error k), by simp, by simp⟩
    | ok opc =>
      simp only [hty] at h ⊢
      cases hs : serialize s.cfg.finPolicy false opc (encKey e k) p with
      | none => rw [hs] at h; cases h
      | some bytes => rw [hs] at h; cases h; exact ⟨bytes, .enc (.frame bytes), rfl, rfl⟩
  · cases h

/-! ## Rows that leave `rx` alone -/

theorem decodeSide_eq_false_of_lengthOrEncode {i : Instr} (hi : lengthRow i = true ∨ encodeSide i = true) :
    decodeSide i = false := by
  cases i <;> simp_all [lengthRow, encodeSide, decodeSide]

/-- A LEN or an ENC row keeps every byte of `rx`. -/
theorem exec_lengthOrEncode_rx {i : Instr} {s t : State} (hi : lengthRow i = true ∨ encodeSide i = true)
    (h : exec i s = .next t) : t.rx = s.rx := by
  obtain ⟨r, rfl, -⟩ | ⟨rfl, -⟩ | ⟨b, rfl, -⟩ | ⟨b, -, hrow⟩ | ⟨-, rfl⟩ :=
    exec_otherSide_cases i (decodeSide_eq_false_of_lengthOrEncode hi) s t h
  · rfl
  · rfl
  · rfl
  · obtain rfl | ⟨ty, parts, rfl⟩ := hrow <;> simp [lengthRow, encodeSide] at hi
  · simp [lengthRow, encodeSide] at hi

/-! ## What one frame does to `rx` and to the fragmentation state -/

/-- A frame that ends DEC removed some bytes from the front of `rx`, or none (R37). -/
theorem frameStep_done_rx {b0 b1 : Byte} {s s' : State} {r : DecResult} (h : frameStep b0 b1 s = .done r s') :
    ∃ n, s'.rx = s.rx.drop n := by
  obtain ⟨-, rfl⟩ | ⟨k, -, -, rfl⟩ | ⟨k, n, -, -, rfl⟩ | ⟨n, w, -, -, rfl⟩ | ⟨n, ty, p, -, rfl | rfl, -⟩ :=
    frameStep_done h
  · exact ⟨0, rfl⟩
  · exact ⟨0, rfl⟩
  all_goals exact ⟨n, rfl⟩

theorem exec_decodeSide_rx {i : Instr} {s t : State} (hi : decodeSide i = true) (h : exec i s = .next t) :
    ∃ n, t.rx = s.rx.drop n := by
  refine exec_decodeSide_induct (P := fun u => ∃ n, u.rx = s.rx.drop n) (Q := fun u => ∃ n, u.rx = s.rx.drop n)
    i hi (fun _ _ _ hP => hP) (fun _ hP _ _ => hP) ?done ?absorbed s t ⟨0, rfl⟩ h
  case done =>
    rintro b0 b1 u r u' ⟨n, hn⟩ - hstep
    obtain ⟨m, hm⟩ := frameStep_done_rx hstep
    exact ⟨n + m, by simp [hm, hn, List.drop_drop]⟩
  case absorbed =>
    rintro b0 b1 u u' ⟨n, hn⟩ - hstep
    obtain ⟨m, d, w, -, -, rfl, -⟩ := frameStep_absorbed hstep
    exact ⟨n + m, by simp [hn, List.drop_drop]⟩

theorem coherent_congr {s t : State} (hpend : t.pend = s.pend) (hacc : t.acc = s.acc) : t.coherent = s.coherent := by
  simp [State.coherent, hpend, hacc]

/-- A frame that ends DEC leaves `pend` and `acc` alone, sets both or clears both. -/
theorem frameStep_done_coherent {b0 b1 : Byte} {s s' : State} {r : DecResult} (hs : s.coherent = true)
    (h : frameStep b0 b1 s = .done r s') : s'.coherent = true := by
  obtain ⟨-, rfl⟩ | ⟨k, -, -, rfl⟩ | ⟨k, n, -, -, rfl⟩ | ⟨n, w, -, -, rfl⟩ | ⟨n, ty, p, -, rfl | rfl, -⟩ :=
    frameStep_done h
  · exact hs
  · exact hs
  · exact hs
  · rfl
  · exact hs
  · rfl

theorem frameStep_absorbed_coherent {b0 b1 : Byte} {s s' : State} (h : frameStep b0 b1 s = .absorbed s') :
    s'.coherent = true := by
  obtain ⟨n, d, w, -, -, rfl, -⟩ := frameStep_absorbed h
  rfl

theorem exec_decodeSide_coherent {i : Instr} {s t : State} (hi : decodeSide i = true) (hs : s.coherent = true)
    (h : exec i s = .next t) : t.coherent = true :=
  exec_decodeSide_induct (P := fun u => u.coherent = true) (Q := fun u => u.coherent = true) i hi
    (fun _ _ _ hP => hP) (fun _ hP _ _ => hP)
    (fun _ _ _ _ u' hP _ hstep => (frameStep_done_coherent hP hstep : u'.coherent = true))
    (fun _ _ _ _ _ _ hstep => frameStep_absorbed_coherent hstep) s t hs h

/-- A row that is not DEC's leaves `pend` and `acc` alone, or is RESET and clears both. -/
theorem exec_otherSide_coherent {i : Instr} {s t : State} (hi : decodeSide i = false) (hs : s.coherent = true)
    (h : exec i s = .next t) : t.coherent = true := by
  obtain ⟨r, rfl, -⟩ | ⟨rfl, -⟩ | ⟨b, rfl, -⟩ | ⟨b, rfl, -⟩ | ⟨rfl, -⟩ := exec_otherSide_cases i hi s t h
  · exact hs
  · exact hs
  · exact hs
  · rwa [coherent_congr (pushBytes_pend b s) (pushBytes_acc b s)]
  · rfl

/-! ## A frame does not read the ports

`withPorts` replaces what stands in the state besides the block and its configuration. One frame goes through it
unchanged, since R19 and R147 let it depend on nothing else. -/

/-- `s` with other pending requests, another transmit stream and other results. -/
def State.withPorts (ops : List Request) (tx : List Byte) (out : List Response) (s : State) : State :=
  { s with ops := ops, tx := tx, out := out }

/-- How a frame ends, with the state after it changed by `f`. -/
def FrameEnd.mapState (f : State → State) : FrameEnd → FrameEnd
  | .done r s => .done r (f s)
  | .absorbed s => .absorbed (f s)
  | .stop k => .stop k

theorem respond_eq_withPorts (r : Response) (s : State) :
    respond r s = s.withPorts s.ops.tail s.tx (s.out ++ [r]) := rfl

section
variable (ops : List Request) (tx : List Byte) (out : List Response)

theorem checkHeader_withPorts (t : FrameType) (f m : Bool) (l : BitVec 7) (s : State) :
    checkHeader t f m l (s.withPorts ops tx out) = checkHeader t f m l s := rfl

theorem deliver_mapState (a : ReasmEnd) :
    deliver (a.mapState (State.withPorts ops tx out)) = (deliver a).mapState (State.withPorts ops tx out) := by
  cases a <;> rfl

theorem runFrame_withPorts (t : FrameType) (f m : Bool) (l : BitVec 7) (s : State) :
    runFrame t f m l (refReassemble t) (s.withPorts ops tx out) =
      (runFrame t f m l (refReassemble t) s).mapState (State.withPorts ops tx out) := by
  simp only [runFrame, checkHeader_withPorts]
  cases checkHeader t f m l s with
  | needMore => rfl
  | bad k => rfl
  | hdr hd =>
    have through := refReassemble_mapState (f := State.withPorts ops tx out) (fun _ => rfl) (fun _ => rfl)
      (fun _ => rfl) (fun _ _ _ => rfl) t (payloadAt s.rx hd.h hd.masked hd.payloadLen) hd.more (consume hd.total s)
    exact (congrArg deliver through).trans (deliver_mapState ops tx out _)

/-- Byte 0 either names a frame type, and the frame runs through the parser, or raises an error at once (R131, R132). -/
theorem frameStep_eq (b0 b1 : Byte) :
    (∃ t, ∀ s, frameStep b0 b1 s = runFrame t (highBit b0) (highBit b1) (low7 b1) (refReassemble t) s) ∨
    ∃ k, ∀ s, frameStep b0 b1 s = raiseError k s := by
  cases hrow : frameRow b0 with
  | frame t => exact .inl ⟨t, fun s => by cases t <;> simp only [frameStep, hrow] <;> rfl⟩
  | rsv1 => exact .inr ⟨.reservedBitUsed, fun s => by simp only [frameStep, hrow, illegalRsv1]⟩
  | rsv2 => exact .inr ⟨.reservedBitUsed, fun s => by simp only [frameStep, hrow, illegalRsv2]⟩
  | rsv3 => exact .inr ⟨.reservedBitUsed, fun s => by simp only [frameStep, hrow, illegalRsv3]⟩
  | opc6to7 => exact .inr ⟨.unknownOpcode, fun s => by simp only [frameStep, hrow, illegalOpc6to7]⟩
  | opc8to15 => exact .inr ⟨.unknownOpcode, fun s => by simp only [frameStep, hrow, illegalOpc8to15]⟩

theorem frameStep_withPorts (b0 b1 : Byte) (s : State) :
    frameStep b0 b1 (s.withPorts ops tx out) = (frameStep b0 b1 s).mapState (State.withPorts ops tx out) := by
  obtain ⟨t, h⟩ | ⟨k, h⟩ := frameStep_eq b0 b1
  · simp only [h, runFrame_withPorts]
  · simp only [h]; rfl

end

/-! ## Incomplete -/

/-- One frame returns no response of its own: the response is DEC's. -/
theorem frameStep_done_out {b0 b1 : Byte} {s s' : State} {r : DecResult} (h : frameStep b0 b1 s = .done r s') :
    s'.out = s.out := by
  obtain ⟨-, rfl⟩ | ⟨k, -, -, rfl⟩ | ⟨k, n, -, -, rfl⟩ | ⟨n, w, -, -, rfl⟩ | ⟨n, ty, p, -, rfl | rfl, -⟩ :=
    frameStep_done h
  all_goals rfl

theorem frameStep_done_incomplete {b0 b1 : Byte} {s s' : State} (h : frameStep b0 b1 s = .done .incomplete s') :
    s' = s := by
  obtain ⟨-, h'⟩ | ⟨k, -, hr, -⟩ | ⟨k, n, -, hr, -⟩ | ⟨n, w, hr, -⟩ | ⟨n, ty, p, hr, -⟩ := frameStep_done h
  · exact h'
  all_goals cases hr

/-- A frame that must wait for more bytes still waits once the response has left (R182). -/
theorem frameStep_respond_incomplete {b0 b1 : Byte} {s s' : State} (r : Response)
    (h : frameStep b0 b1 s = .done .incomplete s') :
    frameStep b0 b1 (respond r s) = .done .incomplete (respond r s) := by
  obtain rfl := frameStep_done_incomplete h
  rw [respond_eq_withPorts, frameStep_withPorts, h]
  rfl

theorem execDec_of_fault_none {s : State} (h : s.fault = none) : execDec s = decLoop s.rx.length s := by
  simp [execDec, h]

/-- Fewer than two bytes are buffered: step 1 answers NeedMore (R130). -/
theorem execDec_short {s : State} (hf : s.fault = none) (h : s.rx.length < 2) :
    execDec s = .next (respond (.dec .incomplete) s) := by
  rw [execDec_of_fault_none hf]
  rcases hrx : s.rx with _ | ⟨b0, _ | ⟨b1, rest⟩⟩
  · rfl
  · simp [decLoop, hrx]
  · simp [hrx] at h

/-- The frame at the cursor ends DEC. -/
theorem execDec_done {s s' : State} {b0 b1 : Byte} {rest : List Byte} {r : DecResult} (hf : s.fault = none)
    (hrx : s.rx = b0 :: b1 :: rest) (h : frameStep b0 b1 s = .done r s') :
    execDec s = .next (respond (.dec r) s') := by
  rw [execDec_of_fault_none hf, hrx, List.length_cons]
  simp only [decLoop, hrx, h]

/-- The state DEC leaves with Incomplete is one in which DEC answers Incomplete and nothing else happens. `s.out` is
what had been returned before, so that the result of this DEC is the one added to it. -/
theorem decLoop_incomplete_stable {s t : State} (hf : s.fault = none) (h : decLoop s.rx.length s = .next t)
    (hout : t.out = s.out ++ [.dec .incomplete]) : execDec t = .next (respond (.dec .incomplete) t) := by
  refine decLoop_induct (P := fun u => u.fault = none ∧ u.out = s.out)
    (Q := fun u => u.out = s.out ++ [.dec .incomplete] → execDec u = .next (respond (.dec .incomplete) u))
    ?incomplete ?done ?absorbed _ s t le_rfl ⟨hf, rfl⟩ h hout
  case incomplete =>
    rintro u ⟨huf, -⟩ hshort -
    exact execDec_short huf hshort
  case done =>
    rintro b0 b1 rest u r u' ⟨huf, huo⟩ hrx hstep hans
    obtain rfl : r = .incomplete := by simpa [frameStep_done_out hstep, huo] using hans
    obtain rfl := frameStep_done_incomplete hstep
    exact execDec_done (s := respond _ u') huf hrx (frameStep_respond_incomplete _ hstep)
  case absorbed =>
    rintro b0 b1 rest u u' ⟨huf, huo⟩ - hstep
    obtain ⟨n, d, w, -, -, rfl, -⟩ := frameStep_absorbed hstep
    exact ⟨huf, huo⟩

end Sys2Proof.Machine

namespace Sys2Proof.Claims

open Sys2Proof.Machine

/-- Settles O12: a row DEC executes leaves, sets or clears `pend` and `acc` together, by the induction over DEC's loop;
of the other rows only RESET writes them, and clears both. -/
theorem coherencePreserved : Obligations.CoherencePreserved := by
  refine ⟨rfl, fun i s t hs h => ?_⟩
  cases hi : decodeSide i with
  | true => exact exec_decodeSide_coherent hi hs h
  | false => exact exec_otherSide_coherent hi hs h

/-- Settles O46: every ENC row is the general rule ENC, which emits and answers by its operands and FIN_POLICY. -/
theorem encoderIsPure : Obligations.EncoderIsPure := by
  intro i s s' t hi hfin h
  obtain ⟨ty, p, e, k, hexec⟩ := exec_encodeSide hi
  rw [hexec] at h
  obtain ⟨bytes, r, rfl, h'⟩ := encGeneral_congr hfin h
  exact ⟨bytes, r, rfl, (hexec s').trans h'⟩

/-- Settles O52, class by class. -/
theorem whoWritesRx : Obligations.WhoWritesRx := by
  intro i s t h
  refine ⟨fun hi => exec_lengthOrEncode_rx hi h, ?push, ?frag, fun hi => exec_decodeSide_rx hi h, ?reset⟩
  case push =>
    rintro bytes rfl
    rw [exec_rxPush] at h
    cases h
    exact pushBytes_rx bytes s
  case frag =>
    rintro ty parts rfl
    obtain ⟨bytes, rfl⟩ := exec_frag_next h
    obtain hrx | hrx := pushBytes_rx bytes s
    · exact ⟨bytes, hrx⟩
    · exact ⟨[], by simpa using hrx⟩
  case reset =>
    rintro rfl
    rw [exec_reset] at h
    cases h
    simp

/-- Settles O54: DEC ends with Incomplete on a short buffer or on a frame that waits, and either answers Incomplete
again; a latched fault answers an error instead. -/
theorem incompleteIsStable : Obligations.IncompleteIsStable := by
  intro s t h hout
  cases hf : s.fault with
  | some k =>
    simp only [exec, execDec, hf] at h
    cases h
    simp at hout
  | none => exact decLoop_incomplete_stable hf ((execDec_of_fault_none hf).symm.trans h) hout

/-- Settles O8. -/
theorem resetGivesResetState : Obligations.ResetGivesResetState :=
  ⟨⟨reset_rx, reset_pend, reset_acc, reset_fault⟩, fun s => ⟨_, exec_reset s, by simp⟩⟩

/-- Settles O60, field by field. -/
theorem statusView : Obligations.StatusView := by
  intro s
  refine ⟨fun h => by simp [status, h], fun k h => ?_, fragActive_iff s, fun h => by simp [status, h],
    fun h => by simp [status, h, dataFrameType, FrameType.opcode],
    fun h => by simp [status, h, dataFrameType, FrameType.opcode], rfl, fun h => by simp [status, h],
    fun a h => by simp [status, h]⟩
  rw [status_faultCode_some h]
  exact ⟨(errCode_mem_range k).1, (errCode_mem_range k).2, errKinds_at_errCode k⟩

end Sys2Proof.Claims
end

section
/-! PROOFS. The family of 20_memory: bytes that arrive later do not change what has been decided on the bytes before
them. First the slices of the buffer, then the length field, then steps 1 to 9 of the parser. -/

namespace Sys2Proof.Machine

/-- A slice that lies within the buffer is not changed by bytes behind it (R31, R38). -/
theorem slice_append_of_le {bytes : List Byte} {i n : Nat} (h : i + n ≤ bytes.length) (more : List Byte) :
    slice (bytes ++ more) i n = slice bytes i n := by
  rw [slice, slice, List.drop_append_of_le_length (by omega), List.take_append_of_le_length (by simp; omega)]

/-! ## The length field -/

theorem lenWide16_append {m : Bool} {rx : List Byte} (h : lenWide16 m rx ≠ .needMore) (more : List Byte) :
    lenWide16 m (rx ++ more) = lenWide16 m rx := by
  have hlen : ¬ rx.length < 4 := fun hlt => h (if_pos hlt)
  have hmore : ¬ (rx ++ more).length < 4 := by simp; omega
  rw [lenWide16, lenWide16, if_neg hlen, if_neg hmore, slice_append_of_le (by omega)]

theorem lenWide64_append {policy : HighLenPolicy} {m : Bool} {rx : List Byte} (h : lenWide64 policy m rx ≠ .needMore)
    (more : List Byte) : lenWide64 policy m (rx ++ more) = lenWide64 policy m rx := by
  have hlen : ¬ rx.length < 10 := fun hlt => h (if_pos hlt)
  have hmore : ¬ (rx ++ more).length < 10 := by simp; omega
  rw [lenWide64, lenWide64, if_neg hlen, if_neg hmore, slice_append_of_le (by omega), slice_append_of_le (by omega)]

/-- A length field that does not wait for more bytes (R93) is read the same with more bytes behind it. -/
theorem decodeLengthAs_append {policy : HighLenPolicy} {m : Bool} {l : BitVec 7} {rx : List Byte}
    (h : decodeLengthAs policy m l rx ≠ .needMore) (more : List Byte) :
    decodeLengthAs policy m l (rx ++ more) = decodeLengthAs policy m l rx := by
  unfold decodeLengthAs at h ⊢
  split_ifs at h ⊢ with hshort hcode
  · rfl
  · exact lenWide16_append h more
  · exact lenWide64_append h more

theorem decodeLength_append {policy : HighLenPolicy} {rx : List Byte} (h : decodeLength policy rx ≠ .needMore)
    (more : List Byte) : decodeLength policy (rx ++ more) = decodeLength policy rx := by
  match rx with
  | [] | [_] => exact absurd rfl h
  | b0 :: b1 :: rest => exact decodeLengthAs_append h more

/-! ## Steps 1 to 9 -/

/-- Steps 7 to 9 compare lengths: a frame that is whole in the buffer is whole with more bytes behind it. -/
theorem checkLength_appendRx {t : FrameType} {f m : Bool} {h n : Nat} {s : State}
    (hw : checkLength t f h m n s ≠ .needMore) (more : List Byte) :
    checkLength t f h m n (appendRx more s) = checkLength t f h m n s := by
  unfold checkLength at hw ⊢
  refine ite_congr rfl (fun _ => rfl) fun hcontrol => ite_congr rfl (fun _ => rfl) fun hmax => ?_
  have hlen : ¬ s.rx.length < frameTotal h m n := fun hlt => hw (by rw [if_neg hcontrol, if_neg hmax, if_pos hlt])
  have hmore : ¬ (appendRx more s).rx.length < frameTotal h m n := by
    rw [appendRx_rx, List.length_append]; omega
  rw [if_neg hlen, if_neg hmore]

/-- A verdict on the frame at the cursor stays (R45, R183): both header bytes are buffered, the steps before the length
field read byte 0 and `pend` alone, and the length field and the length checks are decided. -/
theorem refParseFrame_appendRx {s : State} (h : refParseFrame s ≠ .needMore) (more : List Byte) :
    refParseFrame (appendRx more s) = refParseFrame s := by
  refine (?_ : refParseFrame s = .needMore ∨ refParseFrame (appendRx more s) = refParseFrame s).resolve_left h
  rcases hrx : s.rx with _ | ⟨b0, _ | ⟨b1, rest⟩⟩
  · exact .inl (by simp only [refParseFrame, hrx])
  · exact .inl (by simp only [refParseFrame, hrx])
  simp only [refParseFrame, appendRx_rx, appendRx_cfg, appendRx_pend, hrx, List.cons_append]
  rw [← List.cons_append, ← List.cons_append, ← hrx]
  split
  · exact .inr rfl
  split
  · exact .inr rfl
  split
  · exact .inr rfl
  next t _ =>
  split
  · exact .inr rfl
  split
  · exact .inr rfl
  cases hlen : decodeLength s.cfg.highLen s.rx with
  | needMore => exact .inl rfl
  | bad k => exact .inr (by rw [decodeLength_append (by simp [hlen]), hlen])
  | len hdr masked n =>
    rw [decodeLength_append (by simp [hlen]), hlen]
    exact or_iff_not_imp_left.mpr fun hw => checkLength_appendRx hw more

end Sys2Proof.Machine

namespace Sys2Proof.Claims

open Sys2Proof.Machine

/-- Settles O56, step by step through the parser's listing. -/
theorem parseVerdictIsStable : Obligations.ParseVerdictIsStable :=
  fun _ bytes h => refParseFrame_appendRx h bytes

end Sys2Proof.Claims
end

section
/-! PROOFS. The family of 30_encoding: FRAG is the sequence of its frames. First one frame, then the frames after the
first, then the whole expansion. -/

namespace Sys2Proof.Machine

open Sys2Proof.Claims

/-- An encodable payload has a frame (R64, R88), so `fragFrame` is `Serialize` and never its default. -/
theorem serialize_eq_fragFrame {p : FragPart} (h : encodableLength p.payload = true) (more : Bool) (opc : BitVec 4) :
    serialize false more opc p.mask p.payload = some (fragFrame more opc p) := by
  obtain ⟨len, hlen⟩ := serializable_of_encodable h (maskValue p.mask.isSome)
  simp [fragFrame, serialize, hlen]

/-- A frame of FRAG that is neither the first nor the last goes before the frames that follow it. -/
theorem fragTail_cons {fin : Bool} {p : FragPart} {rest : List FragPart} {bytes more : List Byte} (hne : rest ≠ [])
    (hp : serialize fin true 0#4 p.mask p.payload = some bytes) (hrest : fragTail fin rest = some more) :
    fragTail fin (p :: rest) = some (bytes ++ more) := by
  obtain ⟨q, qs, rfl⟩ := List.exists_cons_of_ne_nil hne
  simp only [fragTail, hp, hrest]

/-- The first frame of FRAG goes before the frames that follow it. -/
theorem fragExpand_cons {fin : Bool} {t : DataType} {p : FragPart} {rest : List FragPart} {bytes more : List Byte}
    (hne : rest ≠ []) (hp : serialize fin true (dataFrameType t).opcode p.mask p.payload = some bytes)
    (hrest : fragTail fin rest = some more) :
    fragExpand fin t (p :: rest) = some (bytes ++ more) := by
  obtain ⟨q, qs, rfl⟩ := List.exists_cons_of_ne_nil hne
  simp only [fragExpand, hp, hrest]

/-- The frames after the first: `CONT+more` for every part but the last, `CONT` for the last (R66). -/
theorem fragTail_append_last {mid : List FragPart} {pn : FragPart}
    (hmid : ∀ p ∈ mid, encodableLength p.payload = true) (hpn : encodableLength pn.payload = true) :
    fragTail false (mid ++ [pn]) = some ((mid.map (fragFrame true 0#4)).flatten ++ fragFrame false 0#4 pn) := by
  induction mid with
  | nil => exact serialize_eq_fragFrame hpn false 0#4
  | cons p mid ih =>
    obtain ⟨hp, hmid⟩ := List.forall_mem_cons.mp hmid
    rw [List.cons_append, fragTail_cons (by simp) (serialize_eq_fragFrame hp true 0#4) (ih hmid)]
    simp

theorem wellFormed_frag_iff (t : DataType) (parts : List FragPart) :
    (Instr.frag t parts).wellFormed = true ↔
      2 ≤ parts.length ∧ ∀ p ∈ parts, encodableLength p.payload = true := by
  simp [Instr.wellFormed, fragParts]

/-- FRAG pushes its expansion where it has one (R66, log 12). -/
theorem exec_frag_of_fragExpand {t : DataType} {parts : List FragPart} {s : State} {bytes : List Byte}
    (h : fragExpand s.cfg.finPolicy t parts = some bytes) : exec (.frag t parts) s = .next (pushBytes bytes s) := by
  simp only [exec, execFrag, h]

end Sys2Proof.Machine

namespace Sys2Proof.Claims

open Sys2Proof.Machine

/-- Settles O49: the first frame and then the frames after it, by induction on the middle parts. -/
theorem fragExpandsAndPushes : Obligations.FragExpandsAndPushes := by
  intro t p0 mid pn s hwf hfin
  obtain ⟨-, henc⟩ := (wellFormed_frag_iff _ _).mp hwf
  have htail := fragTail_append_last (mid := mid) (pn := pn) (fun p hp => henc p (by simp [hp])) (henc pn (by simp))
  have hexpand := fragExpand_cons (t := t) (by simp) (serialize_eq_fragFrame (henc p0 (by simp)) true _) htail
  rw [List.append_assoc]
  exact exec_frag_of_fragExpand (hfin ▸ hexpand)

end Sys2Proof.Claims
end

section
/-! PROOFS. The family of 40_header_codec: every message returned was checked. First the opcodes a message can carry,
then the rows that answer no DEC result, then the message of one frame and of a row DEC executes. -/

namespace Sys2Proof.Machine

open Sys2Proof.Claims

theorem opcode_range_of_ne_continuation {ty : FrameType} (h : ty ≠ .continuation) :
    1 ≤ ty.opcode.toNat ∧ ty.opcode.toNat ≤ 5 := by
  cases ty
  case continuation => exact absurd rfl h
  all_goals decide

theorem pushBytes_out (bytes : List Byte) (s : State) :
    (pushBytes bytes s).out = s.out ++ [.pushAccepted] ∨ (pushBytes bytes s).out = s.out ++ [.pushRefused] := by
  obtain ⟨-, h⟩ | ⟨-, h⟩ := pushBytes_cases bytes s
  · exact .inl (by simp [h])
  · exact .inr (by simp [h])

/-- A row that is not DEC's answers a length, an encode result or a push result, or nothing: never a DEC result. -/
theorem exec_otherSide_out_ne_dec {i : Instr} {s t : State} (hi : decodeSide i = false) (h : exec i s = .next t)
    (r : DecResult) : t.out ≠ s.out ++ [.dec r] := by
  obtain ⟨_, rfl, -⟩ | ⟨rfl, -⟩ | ⟨_, rfl, -⟩ | ⟨bytes, rfl, -⟩ | ⟨rfl, -⟩ := exec_otherSide_cases i hi s t h
  · simp
  · simp
  · simp
  · obtain hout | hout := pushBytes_out bytes s <;> simp [hout]
  · simp

/-- A message one frame returns carries a set `validated` flag and was checked under the configured predicate (R119). -/
theorem frameStep_done_message {b0 b1 : Byte} {s s' : State} {code : BitVec 4} {p : List Byte} {v : Bool}
    (h : frameStep b0 b1 s = .done (.message code p v) s') :
    v = true ∧ messageLawful s.cfg.utf8 code p = true := by
  obtain ⟨hr, -⟩ | ⟨k, -, hr, -⟩ | ⟨k, n, -, hr, -⟩ | ⟨n, w, hr, -⟩ | ⟨n, ty, p', hr, -, hty, htext, hctl⟩ :=
    frameStep_done h
  all_goals cases hr
  exact ⟨rfl, (messageLawful_iff _ _ _).mpr ⟨ty, rfl, hty, hctl, htext⟩⟩

/-- A message a row DEC executes returns was checked: absorbed frames return nothing and keep the configuration, and
the frame that ends the loop returns a checked message. -/
theorem exec_decodeSide_message {i : Instr} {s t : State} {code : BitVec 4} {p : List Byte} {v : Bool}
    (hi : decodeSide i = true) (h : exec i s = .next t) (hout : t.out = s.out ++ [.dec (.message code p v)]) :
    v = true ∧ messageLawful s.cfg.utf8 code p = true := by
  refine exec_decodeSide_induct (P := fun u => u.cfg = s.cfg ∧ u.out = s.out)
    (Q := fun u => u.out = s.out ++ [.dec (.message code p v)] → v = true ∧ messageLawful s.cfg.utf8 code p = true)
    i hi ?fault ?incomplete ?done ?absorbed s t ⟨rfl, rfl⟩ h hout
  case fault =>
    rintro u k - ⟨-, huo⟩ hans
    simp [huo] at hans
  case incomplete =>
    rintro u ⟨-, huo⟩ - - hans
    simp [huo] at hans
  case done =>
    rintro b0 b1 u r u' ⟨huc, huo⟩ - hstep hans
    obtain rfl : r = .message code p v := by simpa [frameStep_done_out hstep, huo] using hans
    exact huc ▸ frameStep_done_message hstep
  case absorbed =>
    rintro b0 b1 u u' hu - hstep
    obtain ⟨n, d, w, -, -, rfl, -⟩ := frameStep_absorbed hstep
    exact hu

end Sys2Proof.Machine

namespace Sys2Proof.Claims

open Sys2Proof.Machine

/-- Settles O59: only a row DEC executes answers a message, the frame that ends its loop checked it, and a lawful code
is the opcode of a type other than Continuation. -/
theorem returnedMessagesAreChecked : Obligations.ReturnedMessagesAreChecked := by
  intro i s t code p v h hout
  cases hi : decodeSide i with
  | false => exact absurd hout (exec_otherSide_out_ne_dec hi h _)
  | true =>
    obtain ⟨hv, hmsg⟩ := exec_decodeSide_message hi h hout
    obtain ⟨ty, rfl, hty, hctl, htext⟩ := (messageLawful_iff _ _ _).mp hmsg
    obtain ⟨hlo, hhi⟩ := opcode_range_of_ne_continuation hty
    exact ⟨hv, hlo, hhi, ty, rfl, hty, hctl, htext⟩

end Sys2Proof.Claims
end

section
/-! PROOFS. The family of 41_length_codec: the length field both ways. First the extended fields as big-endian numbers,
then the forms `DecodeLength` reads, the forms `EncodeLength` writes, and DEC on a length field that is not buffered. -/

namespace Sys2Proof.Machine

open Sys2Proof.Claims

/-! ## Extended fields -/

theorem slice_append_middle (pre field rest : List Byte) :
    slice (pre ++ (field ++ rest)) pre.length field.length = field := by
  simp [slice]

theorem beNat_pair (a b : Byte) : beNat [a, b] = a.toNat * 256 + b.toNat := by
  simp [beNat]

theorem beNat_quad (a b c d : Byte) :
    beNat [a, b, c, d] = a.toNat * 16777216 + b.toNat * 65536 + c.toNat * 256 + d.toNat := by
  simp only [beNat, List.foldl_cons, List.foldl_nil]
  omega

theorem beNat_eq_zero_iff (bytes : List Byte) : beNat bytes = 0 ↔ ∀ b ∈ bytes, b = 0#8 := by
  induction bytes using List.reverseRecOn with
  | nil => simp [beNat_nil]
  | append_singleton rest b ih =>
    have hb : b.toNat = 0 ↔ b = 0#8 := BitVec.toNat_inj (y := 0#8)
    rw [beNat_append_singleton, Nat.add_eq_zero_iff, hb]
    simp [ih, or_imp, forall_and]

/-- A 16-bit length is read back from its two bytes (R86, R90). -/
theorem beNat_toBe16 {n : Nat} (h : n < 65536) : beNat (toBe16 n) = n := by
  simp only [toBe16, beNat_pair, BitVec.toNat_ofNat]
  omega

/-- A 32-bit length is read back from its four bytes (R87, R91). -/
theorem beNat_toBe32 {n : Nat} (h : n < 4294967296) : beNat (toBe32 n) = n := by
  simp only [toBe32, beNat_quad, BitVec.toNat_ofNat]
  omega

/-! ## The forms DecodeLength reads -/

theorem decodeLength_cons (policy : HighLenPolicy) (b0 b1 : Byte) (rest : List Byte) :
    decodeLength policy (b0 :: b1 :: rest) =
      decodeLengthAs policy (maskedOf b1) (len7Of b1) (b0 :: b1 :: rest) := rfl

theorem decodeLengthAs_short {l : BitVec 7} (h : l.toNat ≤ 125) (policy : HighLenPolicy) (m : Bool) (rx : List Byte) :
    decodeLengthAs policy m l rx = .len 2 m l.toNat :=
  if_pos h

theorem decodeLengthAs_126 (policy : HighLenPolicy) (m : Bool) (rx : List Byte) :
    decodeLengthAs policy m 126#7 rx = lenWide16 m rx := rfl

theorem decodeLengthAs_127 (policy : HighLenPolicy) (m : Bool) (rx : List Byte) :
    decodeLengthAs policy m 127#7 rx = lenWide64 policy m rx := rfl

theorem lenWide16_short {rx : List Byte} (h : rx.length < 4) (m : Bool) : lenWide16 m rx = .needMore :=
  if_pos h

theorem lenWide64_short {rx : List Byte} (h : rx.length < 10) (policy : HighLenPolicy) (m : Bool) :
    lenWide64 policy m rx = .needMore :=
  if_pos h

/-- The 16-bit form with its field buffered (R90). -/
theorem lenWide16_field {field : List Byte} (hf : field.length = 2) (m : Bool) (b0 b1 : Byte) (rest : List Byte) :
    lenWide16 m (b0 :: b1 :: (field ++ rest)) = .len 4 m (beNat field) := by
  have hfield : slice (b0 :: b1 :: (field ++ rest)) 2 2 = field := by
    simpa [hf] using slice_append_middle [b0, b1] field rest
  rw [lenWide16, if_neg (by simp [hf]), hfield]

/-- The 8-byte form with its field buffered, the field as its high and its low half (R91, R92). -/
theorem lenWide64_field {high low : List Byte} (hh : high.length = 4) (hl : low.length = 4) (policy : HighLenPolicy)
    (m : Bool) (b0 b1 : Byte) (rest : List Byte) :
    lenWide64 policy m (b0 :: b1 :: (high ++ (low ++ rest))) =
      if beNat high ≠ 0 ∧ policy = .reject then .bad .lengthRangeUnsupported else .len 10 m (beNat low) := by
  have hhigh : slice (b0 :: b1 :: (high ++ (low ++ rest))) 2 4 = high := by
    simpa [hh] using slice_append_middle [b0, b1] high (low ++ rest)
  have hlow : slice (b0 :: b1 :: (high ++ (low ++ rest))) 6 4 = low := by
    simpa [hh, hl] using slice_append_middle (b0 :: b1 :: high) low rest
  rw [lenWide64, if_neg (by simp [hh, hl]; omega), hhigh, hlow]

/-- An extended length field that is not buffered waits for more bytes (R93). -/
theorem decodeLengthAs_needMore {l : BitVec 7} {rx : List Byte}
    (h : (l = 126#7 ∧ rx.length < 4) ∨ (l = 127#7 ∧ rx.length < 10)) (policy : HighLenPolicy) (m : Bool) :
    decodeLengthAs policy m l rx = .needMore := by
  obtain ⟨rfl, hlen⟩ | ⟨rfl, hlen⟩ := h
  · rw [decodeLengthAs_126, lenWide16_short hlen]
  · rw [decodeLengthAs_127, lenWide64_short hlen]

/-! ## The forms EncodeLength writes -/

theorem encodeLength_short {n : Nat} (h : n ≤ 125) (mv : Byte) :
    encodeLength n mv = some [BitVec.ofNat 8 n ||| mv] :=
  if_pos h

theorem encodeLength_wide16 {n : Nat} (hlo : 126 ≤ n) (hhi : n < 65536) (mv : Byte) :
    encodeLength n mv = some ((126#8 ||| mv) :: toBe16 n) := by
  rw [encodeLength, if_neg (by omega), if_pos hhi]

theorem encodeLength_wide64 {n : Nat} (hlo : 65536 ≤ n) (hhi : n < 4294967296) (mv : Byte) :
    encodeLength n mv = some ((127#8 ||| mv) :: ([0#8, 0#8, 0#8, 0#8] ++ toBe32 n)) := by
  rw [encodeLength, if_neg (by omega), if_neg (by omega), if_pos hhi]

theorem encodeLength_huge {n : Nat} (h : 4294967296 ≤ n) (mv : Byte) : encodeLength n mv = none :=
  Option.not_isSome_iff_eq_none.mp (mt (encodeLength_isSome_iff n mv).mp (by omega))

/-- The length byte `EncodeLength` writes is byte 1 of a frame with that mask flag and that length code (R77). -/
theorem lengthByte_eq_byte1Of (masked : Bool) (l : BitVec 7) :
    BitVec.ofNat 8 l.toNat ||| maskValue masked = byte1Of masked l := by
  revert masked l; decide

theorem decodeLength_byte1Of (policy : HighLenPolicy) (m : Bool) (l : BitVec 7) (b0 : Byte) (rest : List Byte) :
    decodeLength policy (b0 :: byte1Of m l :: rest) = decodeLengthAs policy m l (b0 :: byte1Of m l :: rest) := by
  obtain ⟨hm, hl⟩ := byte1Of_fields m l
  rw [decodeLength_cons, maskedOf, len7Of, hm, hl]

/-! ## DEC and ENC -/

/-- The frame whose type byte 0 names runs through the parser (R131, R132). -/
theorem frameStep_of_frameRow {b0 : Byte} {t : FrameType} (h : frameRow b0 = .frame t) (b1 : Byte) (s : State) :
    frameStep b0 b1 s = runFrame t (highBit b0) (highBit b1) (low7 b1) (refReassemble t) s := by
  cases t <;> simp only [frameStep, h] <;> rfl

/-- A frame that passes steps 2 to 6 waits when its length field does (R93, R136). -/
theorem frameStep_needMore {b0 b1 : Byte} {t : FrameType} {s : State} (ha : HeaderAllowed b0 t s)
    (hlen : decodeLengthAs s.cfg.highLen (maskedOf b1) (len7Of b1) s.rx = .needMore) :
    frameStep b0 b1 s = .done .incomplete s := by
  obtain ⟨hrow, hstep5, hstep6⟩ := ha
  have hcheck : checkHeader t (highBit b0) (highBit b1) (low7 b1) s = .needMore := by
    simp only [maskedOf, len7Of, moreOf] at hlen hstep5
    rw [checkHeader, if_neg hstep5, if_neg hstep6]
    simp only [hlen]
  rw [frameStep_of_frameRow hrow]
  simp only [runFrame, hcheck]

/-- ENC refuses a payload that is not encodable, whatever its type (R88, log 13). -/
theorem encGeneral_refused {p : List Byte} (h : 4294967296 ≤ p.length) (ty : BitVec 4) (e : Bool) (k : Key)
    (s : State) : encGeneral ty p e k s = .refused .encPayloadNotEncodable := by
  rw [encGeneral, if_neg (by simpa [encodableLength] using h)]

end Sys2Proof.Machine

namespace Sys2Proof.Claims

open Sys2Proof.Machine

/-- Settles O26: the length field waits, so the frame waits, and that ends DEC. -/
theorem incompleteExtendedLength : Obligations.IncompleteExtendedLength := by
  intro s b0 b1 rest hrx hshort
  have hlen := decodeLengthAs_needMore hshort s.cfg.highLen (maskedOf b1)
  refine ⟨?_, fun t ha hf => execDec_done hf hrx (frameStep_needMore ha hlen)⟩
  rw [hrx, decodeLength_cons, ← hrx, hlen]

/-- Settles O33, form by form. -/
theorem lengthDecoding : Obligations.LengthDecoding := by
  intro policy b0 b1 rest
  rw [decodeLength_cons]
  refine ⟨fun h => decodeLengthAs_short h _ _ _, ?wide16, ?wide64⟩
  case wide16 =>
    rintro x y more hcode rfl
    rw [hcode, decodeLengthAs_126, ← beNat_pair]
    exact lenWide16_field (field := [x, y]) rfl _ _ _ _
  case wide64 =>
    rintro h0 h1 h2 h3 l0 l1 l2 l3 more hcode rfl
    have hzero : beNat [h0, h1, h2, h3] = 0 ↔ h0 = 0#8 ∧ h1 = 0#8 ∧ h2 = 0#8 ∧ h3 = 0#8 := by
      simp [beNat_eq_zero_iff]
    have hform := lenWide64_field (high := [h0, h1, h2, h3]) (low := [l0, l1, l2, l3]) rfl rfl policy (maskedOf b1)
      b0 b1 more
    rw [hcode, decodeLengthAs_127, ← beNat_quad, ← hzero]
    refine ⟨fun h => hform.trans (if_neg ?_), fun hpolicy hne => hform.trans (if_pos ⟨hne, hpolicy⟩)⟩
    rintro ⟨hne, rfl⟩
    simp [hne] at h

/-- Settles O35: the extended bytes are those of `toBe16` and `toBe32`, whose big-endian value is the length. -/
theorem encodeLengthForms : Obligations.EncodeLengthForms := by
  refine fun n mv => ⟨fun h => encodeLength_short h mv, fun hlo hhi => ?wide16, fun hlo hhi => ?wide64⟩
  case wide16 =>
    exact ⟨_, _, encodeLength_wide16 hlo hhi mv, (beNat_pair _ _).symm.trans (beNat_toBe16 hhi)⟩
  case wide64 =>
    exact ⟨_, _, _, _, encodeLength_wide64 hlo hhi mv, (beNat_quad _ _ _ _).symm.trans (beNat_toBe32 hhi)⟩

/-- Settles O38, by the form `EncodeLength` chose; the 8-byte form's high half is zero, so Reject lets it pass. -/
theorem decodeLengthOfEncodeLength : Obligations.DecodeLengthOfEncodeLength := by
  intro n masked policy b0 enc rest h
  have hn : n < 4294967296 := (encodeLength_isSome_iff n (maskValue masked)).mp (by simp [h])
  obtain hshort | ⟨hlo, hhi⟩ | hlo : n ≤ 125 ∨ (126 ≤ n ∧ n < 65536) ∨ 65536 ≤ n := by omega
  · obtain rfl := Option.some.inj ((encodeLength_short hshort _).symm.trans h)
    obtain ⟨l, rfl⟩ : ∃ l : BitVec 7, l.toNat = n := ⟨BitVec.ofNat 7 n, by simp; omega⟩
    rw [lengthByte_eq_byte1Of, List.singleton_append, decodeLength_byte1Of, decodeLengthAs_short hshort]
    rfl
  · obtain rfl := Option.some.inj ((encodeLength_wide16 hlo hhi _).symm.trans h)
    rw [show 126#8 ||| maskValue masked = _ from lengthByte_eq_byte1Of masked 126#7, List.cons_append,
      decodeLength_byte1Of, decodeLengthAs_126, lenWide16_field rfl, beNat_toBe16 hhi]
    rfl
  · obtain rfl := Option.some.inj ((encodeLength_wide64 hlo hn _).symm.trans h)
    have hhigh : beNat [0#8, 0#8, 0#8, 0#8] = 0 := rfl
    rw [show 127#8 ||| maskValue masked = _ from lengthByte_eq_byte1Of masked 127#7, List.cons_append,
      List.append_assoc, decodeLength_byte1Of, decodeLengthAs_127, lenWide64_field rfl rfl,
      if_neg (fun hbad => hbad.1 hhigh), beNat_toBe32 hn]
    rfl

/-- Settles O36: each of the five is the general rule ENC. -/
theorem hugePayloadRefused : Obligations.HugePayloadRefused := by
  intro p hp mv e k s
  have hrefused := fun ty => encGeneral_refused hp ty e k s
  exact ⟨encodeLength_huge hp mv, hrefused 1#4, hrefused 2#4, hrefused 3#4, hrefused 4#4, hrefused 5#4⟩

end Sys2Proof.Claims
end

section
/-! PROOFS. The family of 42_masking: a masked byte by its index, the key as the four bytes before the payload, then the
payload delivered as bytes of the receive buffer. -/

namespace Sys2Proof.Machine

/-! ## The key -/

theorem keyByte_eq_getD_keyList (key : Key) (i : Nat) : keyByte key i = (keyList key).getD (i % 4) 0#8 := by
  have hlt : i % 4 < 4 := Nat.mod_lt i (by omega)
  unfold keyByte
  generalize i % 4 = j at hlt ⊢
  interval_cases j <;> rfl

/-- The key of a frame is the four bytes at its offset, reused cyclically (R54, R100). -/
theorem keyByte_keyAt (rx : List Byte) (h i : Nat) : keyByte (keyAt rx h) i = rx.getD (h + i % 4) 0#8 := by
  have hlt : i % 4 < 4 := Nat.mod_lt i (by omega)
  rw [keyByte_eq_getD_keyList]
  generalize i % 4 = j at hlt ⊢
  interval_cases j <;> rfl

/-! ## Bytes by index -/

theorem maskFrom_getElem? (key : Key) (data : List Byte) (start i : Nat) :
    (maskFrom key start data)[i]? = data[i]?.map (· ^^^ keyByte key (start + i)) := by
  induction data generalizing start i with
  | nil => rfl
  | cons b rest ih =>
    cases i with
    | zero => rfl
    | succ i =>
      have hindex : start + 1 + i = start + (i + 1) := by omega
      simp only [maskFrom, List.getElem?_cons_succ, ih, hindex]

@[simp] theorem mask_getElem? (data : List Byte) (key : Key) (i : Nat) :
    (mask data key)[i]? = data[i]?.map (· ^^^ keyByte key i) := by
  rw [mask, maskFrom_getElem?, Nat.zero_add]

theorem slice_getElem? {i n : Nat} (h : i < n) (bytes : List Byte) (start : Nat) :
    (slice bytes start n)[i]? = bytes[start + i]? := by
  rw [slice, List.getElem?_take_of_lt h, List.getElem?_drop]

/-! ## The payload delivered -/

theorem payloadAt_unmasked (rx : List Byte) (h n : Nat) : payloadAt rx h false n = slice rx h n := rfl

theorem payloadAt_masked (rx : List Byte) (h n : Nat) :
    payloadAt rx h true n = mask (slice rx (h + 4) n) (keyAt rx h) := rfl

end Sys2Proof.Machine

namespace Sys2Proof.Claims

open Sys2Proof.Machine

/-- Settles O39: the masking index starts at 0. -/
theorem maskIsXorWithKey : Obligations.MaskIsXorWithKey := by
  refine fun data k => ⟨mask_length data k, fun i b hb => ?_⟩
  rw [mask_getElem?, hb, Option.map_some, keyByte_eq_getD_keyList, keyList]

/-- Settles O40: the payload is a slice of `rx`, masked with the four bytes before it when the frame is masked. -/
theorem payloadExtraction : Obligations.PayloadExtraction := by
  refine fun rx h L => ⟨fun hle => ⟨?lengthUnmasked, ?byteUnmasked⟩, fun hle => ⟨?lengthMasked, ?byteMasked⟩⟩
  case lengthUnmasked => exact slice_length hle
  case byteUnmasked =>
    intro i b hi hb
    rw [payloadAt_unmasked, slice_getElem? hi, hb]
  case lengthMasked => rw [payloadAt_masked, mask_length, slice_length hle]
  case byteMasked =>
    intro i b k hi hb hk
    have hkey : keyByte (keyAt rx h) i = k := by
      rw [keyByte_keyAt, List.getD_eq_getElem?_getD, hk, Option.getD_some]
    rw [payloadAt_masked, mask_getElem?, slice_getElem? hi, hb, Option.map_some, hkey]

/-- Settles O41: byte `i` meets the same key byte twice. -/
theorem maskIsSelfInverse : Obligations.MaskIsSelfInverse := by
  intro data k
  have hcancel : ∀ b c : Byte, b ^^^ c ^^^ c = b := fun b c => by
    rw [BitVec.xor_assoc, BitVec.xor_self, BitVec.xor_zero]
  refine List.ext_getElem? fun i => ?_
  rw [mask_getElem?, mask_getElem?, Option.map_map]
  simp [Function.comp_def, hcancel]

end Sys2Proof.Claims
end

section
/-! PROOFS. The family of 43_reassembler: the frame at the cursor as DEC's next move, what the reassembler answers it,
who raises AccOverflow, and `utf8_valid` as concatenation of byte patterns. The lemmas come first, in that order. -/

namespace Sys2Proof.Machine

open Sys2Proof.Claims

/-! ## DEC runs the frame at the cursor -/

/-- With two bytes buffered DEC is the frame they begin, and then whatever that frame's end asks for (R140). -/
theorem exec_dec_cons {s : State} {b0 b1 : Byte} {rest : List Byte} (hf : s.fault = none)
    (hrx : s.rx = b0 :: b1 :: rest) : exec .dec s = afterFrame (frameStep b0 b1 s) := by
  have hlen : s.rx.length = rest.length + 1 + 1 := by simp [hrx]
  change execDec s = _
  rw [execDec_of_fault_none hf, hlen]
  simp only [decLoop, hrx]
  cases hstep : frameStep b0 b1 s with
  | done r s' => rfl
  | stop f => rfl
  | absorbed s' =>
    have hshort := frameStep_absorbed_shorter hstep
    exact decLoop_fuel (rest.length + 1) s'.rx.length s' (by omega) le_rfl

@[simp] theorem afterFrame_deliver_emit (t : FrameType) (p : List Byte) (s : State) :
    afterFrame (deliver (.emit t p s)) = decMessage t p s := rfl

@[simp] theorem afterFrame_deliver_bad (k : ErrKind) (s : State) : afterFrame (deliver (.bad k s)) = decError k s := rfl

/-- An absorbed frame gives no result: DEC goes on with the next frame (R140). -/
theorem afterFrame_deliver_absorb {s : State} (hf : s.fault = none) : afterFrame (deliver (.absorb s)) = exec .dec s :=
  (execDec_of_fault_none hf).symm

/-! ## Steps 4 to 9 for a length that is decoded -/

/-- Past steps 2 to 6, with the length decoded, the header is decided by the length checks (R136 to R138). -/
theorem checkHeader_of_decodeLength {b0 b1 : Byte} {rest : List Byte} {t : FrameType} {m : Bool} {h L : Nat} {s : State}
    (hrx : s.rx = b0 :: b1 :: rest) (ha : HeaderAllowed b0 t s) (hlen : decodeLength s.cfg.highLen s.rx = .len h m L) :
    checkHeader t (highBit b0) (highBit b1) (low7 b1) s = checkLength t (moreOf s.cfg.finPolicy b0) h m L s := by
  obtain ⟨-, hstep5, hstep6⟩ := ha
  rw [hrx, decodeLength_cons, ← hrx] at hlen
  simp only [maskedOf, len7Of, moreOf] at hlen hstep5
  rw [checkHeader, if_neg hstep5, if_neg hstep6]
  simp only [hlen, moreOf]

theorem checkLength_here {t : FrameType} {m : Bool} {h L : Nat} {s : State} (more : Bool)
    (hctl : isControl t = true → L ≤ 125) (hmax : h + keyBytes m + L ≤ s.cfg.maxFs)
    (hhere : h + keyBytes m + L ≤ s.rx.length) :
    checkLength t more h m L s = .hdr ⟨h, m, L, t, more, h + keyBytes m + L⟩ := by
  rw [checkLength, frameTotal, if_neg fun hc => absurd (hctl hc.1) (by omega), if_neg (by omega), if_neg (by omega)]

theorem checkLength_partial {t : FrameType} {m : Bool} {h L : Nat} {s : State} (more : Bool)
    (hctl : isControl t = true → L ≤ 125) (hmax : h + keyBytes m + L ≤ s.cfg.maxFs)
    (hpart : s.rx.length < h + keyBytes m + L) : checkLength t more h m L s = .needMore := by
  rw [checkLength, frameTotal, if_neg fun hc => absurd (hctl hc.1) (by omega), if_neg (by omega), if_pos hpart]

/-! ## The frame at the cursor reaches the reassembler -/

/-- A frame whose length field is decoded has both its header bytes in the buffer (R130). -/
theorem rx_eq_cons_of_frameHere {b0 : Byte} {m : Bool} {h L : Nat} {s : State} (hb : FrameHere b0 m h L s) :
    ∃ b1 rest, s.rx = b0 :: b1 :: rest := by
  obtain ⟨hhead, hlen, -, -⟩ := hb
  rcases hrx : s.rx with _ | ⟨c0, _ | ⟨b1, rest⟩⟩
  · simp [hrx] at hhead
  · simp [hrx, decodeLength] at hlen
  · obtain rfl : c0 = b0 := by simpa [hrx] using hhead
    exact ⟨b1, rest, rfl⟩

/-- A frame that passes every step is consumed, and the reassembler's answer is DEC's next move (R139, R140). -/
theorem exec_dec_frameHere {b0 : Byte} {t : FrameType} {m : Bool} {h L : Nat} {s : State}
    (hfin : s.cfg.finPolicy = false) (hf : s.fault = none) (hb : FrameHere b0 m h L s) (ha : HeaderAllowed b0 t s)
    (hctl : isControl t = true → L ≤ 125) :
    exec .dec s = afterFrame (deliver (refReassemble t (payload m h L s) (highBit b0) (consumed m h L s))) := by
  obtain ⟨b1, rest, hrx⟩ := rx_eq_cons_of_frameHere hb
  have hmore : moreOf s.cfg.finPolicy b0 = highBit b0 := by simp [moreOf, moreFlag, hfin]
  have hcheck := (checkHeader_of_decodeLength hrx ha hb.len).trans (checkLength_here _ hctl hb.maxFs hb.here)
  rw [hmore] at hcheck
  rw [exec_dec_cons hf hrx, frameStep_of_frameRow ha.row]
  simp only [runFrame, hcheck]
  rfl

/-- Incomplete while the payload is partly buffered, for a frame that passes steps 2 to 8 (R138). -/
theorem exec_dec_partial {b0 b1 : Byte} {rest : List Byte} {t : FrameType} {m : Bool} {h L : Nat} {s : State}
    (hf : s.fault = none) (hrx : s.rx = b0 :: b1 :: rest) (ha : HeaderAllowed b0 t s)
    (hctl : isControl t = true → L ≤ 125) (hlen : decodeLength s.cfg.highLen s.rx = .len h m L)
    (hmax : h + keyBytes m + L ≤ s.cfg.maxFs) (hpart : s.rx.length < h + keyBytes m + L) :
    exec .dec s = decIncomplete s := by
  have hcheck := (checkHeader_of_decodeLength hrx ha hlen).trans (checkLength_partial _ hctl hmax hpart)
  rw [exec_dec_cons hf hrx, frameStep_of_frameRow ha.row]
  simp only [runFrame, hcheck]
  rfl

/-! ## Which types pass steps 5 and 6 -/

theorem headerAllowed_continuation {b0 : Byte} (hrow : frameRow b0 = .frame .continuation) (s : State) :
    HeaderAllowed b0 .continuation s :=
  ⟨hrow, by simp [isControl], by simp [isData]⟩

theorem isControl_dataFrameType (d : DataType) : isControl (dataFrameType d) = false := by
  cases d <;> rfl

theorem isData_of_isControl {t : FrameType} (h : isControl t = true) : isData t = false := by
  cases t with
  | close | ping | pong => rfl
  | continuation | text | binary => cases h

theorem headerAllowed_data {b0 : Byte} {d : DataType} {s : State} (hrow : frameRow b0 = .frame (dataFrameType d))
    (hp : s.pend = none) : HeaderAllowed b0 (dataFrameType d) s :=
  ⟨hrow, by simp [isControl_dataFrameType], by simp [hp]⟩

theorem headerAllowed_control {b0 : Byte} {t : FrameType} {s : State} (hrow : frameRow b0 = .frame t)
    (hctl : isControl t = true) (hmore : moreOf s.cfg.finPolicy b0 = false) : HeaderAllowed b0 t s :=
  ⟨hrow, by simp [hmore], by simp [isData_of_isControl hctl]⟩

/-! ## What the reassembler answers, rule by rule -/

theorem reasmControl_single (t : FrameType) (p : List Byte) (s : State) : reasmControl t p false s = .emit t p s := rfl

theorem reasmControl_fragmented (t : FrameType) (p : List Byte) (s : State) :
    reasmControl t p true s = .bad .fragmentedControlFrame s := rfl

theorem refReassemble_control {t : FrameType} (h : isControl t = true) (p : List Byte) (more : Bool) (s : State) :
    refReassemble t p more s = reasmControl t p more s := by
  cases t with
  | close | ping | pong => rfl
  | continuation | text | binary => cases h

theorem reasmText_pending {s : State} (h : s.pend.isSome = true) (p : List Byte) (more : Bool) :
    reasmText p more s = .bad .dataFrameInsteadContinuation s :=
  if_pos h

theorem reasmBinary_pending {s : State} (h : s.pend.isSome = true) (p : List Byte) (more : Bool) :
    reasmBinary p more s = .bad .dataFrameInsteadContinuation s :=
  if_pos h

theorem reasmText_valid {p : List Byte} {s : State} (hp : s.pend = none) (hv : utf8Valid s.cfg.utf8 p = true) :
    reasmText p false s = .emit .text p s := by
  simp [reasmText, hp, hv]

theorem reasmText_invalid {p : List Byte} {s : State} (hp : s.pend = none) (hv : utf8Valid s.cfg.utf8 p = false) :
    reasmText p false s = .bad .invalidPayloadEncoding s := by
  simp [reasmText, hp, hv]

theorem reasmBinary_single {s : State} (hp : s.pend = none) (p : List Byte) :
    reasmBinary p false s = .emit .binary p s := by
  simp [reasmBinary, hp]

/-- A first fragment of either type opens the message, and no payload byte is looked at (R112, R113). -/
theorem refReassemble_first {s : State} (hp : s.pend = none) (d : DataType) (p : List Byte) :
    refReassemble (dataFrameType d) p true s = startMessage d p s := by
  cases d <;> simp [refReassemble, dataFrameType, reasmText, reasmBinary, hp]

theorem startMessage_fits {p : List Byte} {s : State} (h : fitsCap s.cfg.accCap p.length = true) (d : DataType) :
    startMessage d p s = .absorb (setFrag (some d) (some p) s) :=
  if_pos h

theorem startMessage_overflow {p : List Byte} {s : State} (h : fitsCap s.cfg.accCap p.length = false) (d : DataType) :
    startMessage d p s = .bad .accOverflow s := by
  simp [startMessage, h]

theorem reasmCont_idle {s : State} (hp : s.pend = none) (p : List Byte) (more : Bool) :
    reasmCont p more s = .bad .unexpectedContinuationFrame s := by
  simp only [reasmCont, hp]

theorem reasmCont_accumulating {t : DataType} {a : List Byte} {s : State} (hp : s.pend = some t) (ha : s.acc = some a)
    (p : List Byte) (more : Bool) : reasmCont p more s = appendFragment t a p more s := by
  simp only [reasmCont, hp, ha]

theorem appendFragment_more {a p : List Byte} {s : State} (h : fitsCap s.cfg.accCap (a ++ p).length = true)
    (t : DataType) : appendFragment t a p true s = .absorb (setFrag (some t) (some (a ++ p)) s) := by
  rw [appendFragment, if_pos h, if_pos rfl]

theorem appendFragment_last {a p : List Byte} {s : State} (h : fitsCap s.cfg.accCap (a ++ p).length = true)
    (t : DataType) : appendFragment t a p false s = finishMessage t (a ++ p) s := by
  rw [appendFragment, if_pos h, if_neg (by simp)]

theorem appendFragment_overflow {a p : List Byte} {s : State} (h : fitsCap s.cfg.accCap (a ++ p).length = false)
    (t : DataType) (more : Bool) : appendFragment t a p more s = .bad .accOverflow s := by
  rw [appendFragment, if_neg (by rw [h]; exact Bool.false_ne_true)]

/-! ## DEC on the frame at the cursor, by class of frame -/

section
variable {b0 : Byte} {m : Bool} {h L : Nat} {s : State}
  (hfin : s.cfg.finPolicy = false) (hf : s.fault = none) (hb : FrameHere b0 m h L s)
include hfin hf hb

theorem exec_dec_control {t : FrameType} (hctl : isControl t = true) (hrow : frameRow b0 = .frame t)
    (hraw : highBit b0 = false) (hL : L ≤ 125) :
    exec .dec s = decMessage t (payload m h L s) (consumed m h L s) := by
  have ha : HeaderAllowed b0 t s := headerAllowed_control hrow hctl (by simp [moreOf, moreFlag, hfin, hraw])
  rw [exec_dec_frameHere hfin hf hb ha (fun _ => hL), refReassemble_control hctl, hraw, reasmControl_single,
    afterFrame_deliver_emit]

theorem exec_dec_continuation (hrow : frameRow b0 = .frame .continuation) :
    exec .dec s = afterFrame (deliver (reasmCont (payload m h L s) (highBit b0) (consumed m h L s))) :=
  exec_dec_frameHere hfin hf hb (headerAllowed_continuation hrow s) (by simp [isControl])

theorem exec_dec_append {t : DataType} {a : List Byte} (hrow : frameRow b0 = .frame .continuation)
    (hp : s.pend = some t) (ha : s.acc = some a) :
    exec .dec s = afterFrame (deliver (appendFragment t a (payload m h L s) (highBit b0) (consumed m h L s))) := by
  rw [exec_dec_continuation hfin hf hb hrow, reasmCont_accumulating (s := consumed m h L s) hp ha]

variable (hp : s.pend = none)
include hp

/-- A Text or Binary frame while Idle: the reassembler's rule of its type. -/
theorem exec_dec_data (d : DataType) (hrow : frameRow b0 = .frame (dataFrameType d)) :
    exec .dec s =
      afterFrame (deliver (refReassemble (dataFrameType d) (payload m h L s) (highBit b0) (consumed m h L s))) :=
  exec_dec_frameHere hfin hf hb (headerAllowed_data hrow hp) (by simp [isControl_dataFrameType])

theorem exec_dec_first (d : DataType) (hrow : frameRow b0 = .frame (dataFrameType d)) (hraw : highBit b0 = true) :
    exec .dec s = afterFrame (deliver (startMessage d (payload m h L s) (consumed m h L s))) := by
  rw [exec_dec_data hfin hf hb hp d hrow, hraw, refReassemble_first (s := consumed m h L s) hp]

theorem exec_dec_first_fits (d : DataType) (hrow : frameRow b0 = .frame (dataFrameType d)) (hraw : highBit b0 = true)
    (hfit : fitsCap s.cfg.accCap (payload m h L s).length = true) :
    exec .dec s = exec .dec (setFrag (some d) (some (payload m h L s)) (consumed m h L s)) := by
  rw [exec_dec_first hfin hf hb hp d hrow hraw, startMessage_fits (s := consumed m h L s) hfit]
  exact afterFrame_deliver_absorb hf

theorem exec_dec_first_overflow (d : DataType) (hrow : frameRow b0 = .frame (dataFrameType d))
    (hraw : highBit b0 = true) (hover : fitsCap s.cfg.accCap (payload m h L s).length = false) :
    exec .dec s = decError .accOverflow (consumed m h L s) := by
  rw [exec_dec_first hfin hf hb hp d hrow hraw, startMessage_overflow (s := consumed m h L s) hover,
    afterFrame_deliver_bad]

end

/-! ## Who raises AccOverflow (R118) -/

theorem checkHeader_ne_accOverflow (t : FrameType) (f m : Bool) (l : BitVec 7) (s : State) :
    checkHeader t f m l s ≠ .bad .accOverflow := by
  unfold checkHeader
  split
  · simp
  split
  · simp
  split
  · simp
  next k hlen => simp [(decodeLengthAs_bad hlen).1]
  · unfold checkLength
    split_ifs <;> simp

/-- With an unbounded ACC_CAP every creation and every append fits, so the reassembler never answers AccOverflow. -/
theorem refReassemble_ne_accOverflow {s : State} (hcap : s.cfg.accCap = none) (t : FrameType) (p : List Byte)
    (more : Bool) (s' : State) : refReassemble t p more s ≠ .bad .accOverflow s' := by
  have hfit : ∀ n, fitsCap s.cfg.accCap n = true := fun n => by rw [hcap, fitsCap_none]
  cases t with
  | continuation =>
    simp only [refReassemble, reasmCont, appendFragment, hfit, finishMessage]
    split
    · simp
    · split_ifs <;> simp
    · simp
  | text =>
    simp only [refReassemble, reasmText, startMessage_fits (hfit _)]
    split_ifs <;> simp
  | binary =>
    simp only [refReassemble, reasmBinary, startMessage_fits (hfit _)]
    split_ifs <;> simp
  | _ => cases more <;> simp [refReassemble, reasmClose, reasmPing, reasmPong, reasmControl]

theorem deliver_eq_protocolError {a : ReasmEnd} {k : ErrKind} {s : State}
    (h : deliver a = .done (.protocolError k) s) : ∃ s', a = .bad k s' := by
  cases a with
  | bad k' s' => cases h; exact ⟨s', rfl⟩
  | _ => cases h

theorem frameStep_ne_accOverflow {s : State} (hcap : s.cfg.accCap = none) (b0 b1 : Byte) (s' : State) :
    frameStep b0 b1 s ≠ .done (.protocolError .accOverflow) s' := by
  intro hstep
  cases hrow : frameRow b0 with
  | frame t =>
    rw [frameStep_of_frameRow hrow, runFrame] at hstep
    split at hstep
    · cases hstep
    next k hk => cases hstep; exact checkHeader_ne_accOverflow _ _ _ _ _ hk
    next hd _ =>
      obtain ⟨s'', hbad⟩ := deliver_eq_protocolError hstep
      exact refReassemble_ne_accOverflow (s := consume hd.total s) hcap _ _ _ _ hbad
  | rsv1 | rsv2 | rsv3 | opc6to7 | opc8to15 =>
    simp [frameStep, hrow, raiseError, illegalRsv1, illegalRsv2, illegalRsv3, illegalOpc6to7, illegalOpc8to15] at hstep

/-- A frame that ends DEC leaves the latch, or sets it to the error it answers (R184). -/
theorem frameStep_done_fault {b0 b1 : Byte} {s s' : State} {r : DecResult} (h : frameStep b0 b1 s = .done r s') :
    s'.fault = s.fault ∨ ∃ k, r = .protocolError k ∧ s'.fault = some k := by
  obtain ⟨-, rfl⟩ | ⟨k, -, hr, rfl⟩ | ⟨k, n, -, hr, rfl⟩ | ⟨n, w, hr, -, rfl⟩ | ⟨n, ty, p, -, rfl | rfl, -⟩ :=
    frameStep_done h
  · exact .inl rfl
  · exact .inr ⟨k, hr, rfl⟩
  · exact .inr ⟨k, hr, rfl⟩
  · exact .inr ⟨_, hr, rfl⟩
  · exact .inl rfl
  · exact .inl rfl

theorem frameStep_done_fault_ne_accOverflow {b0 b1 : Byte} {s s' : State} {r : DecResult} (hcap : s.cfg.accCap = none)
    (hs : s.fault ≠ some .accOverflow) (h : frameStep b0 b1 s = .done r s') : s'.fault ≠ some .accOverflow := by
  obtain hkept | ⟨k, rfl, hset⟩ := frameStep_done_fault h
  · rwa [hkept]
  · rw [hset]
    rintro ⟨⟩
    exact frameStep_ne_accOverflow hcap b0 b1 s' h

theorem exec_decodeSide_fault_ne_accOverflow {i : Instr} {s t : State} (hi : decodeSide i = true)
    (hcap : s.cfg.accCap = none) (hs : s.fault ≠ some .accOverflow) (h : exec i s = .next t) :
    t.fault ≠ some .accOverflow := by
  refine exec_decodeSide_induct (P := fun u => u.cfg.accCap = none ∧ u.fault ≠ some .accOverflow)
    (Q := fun u => u.fault ≠ some .accOverflow) i hi (fun _ _ _ hP => hP.2) (fun _ hP _ _ => hP.2) ?done ?absorbed
    s t ⟨hcap, hs⟩ h
  case done =>
    rintro b0 b1 u r u' ⟨huc, huf⟩ - hstep
    exact (frameStep_done_fault_ne_accOverflow huc huf hstep : u'.fault ≠ _)
  case absorbed =>
    rintro b0 b1 u u' hu - hstep
    obtain ⟨n, d, w, -, -, rfl, -⟩ := frameStep_absorbed hstep
    exact hu

/-! ## Rows that are not DEC's -/

/-- A row that is neither DEC's nor RESET writes ports and the receive buffer only (R110). -/
theorem exec_otherSide_reassembler {i : Instr} {s t : State} (hi : decodeSide i = false) (hne : i ≠ .reset)
    (h : exec i s = .next t) : t.pend = s.pend ∧ t.acc = s.acc ∧ t.fault = s.fault ∧ t.cfg = s.cfg := by
  obtain ⟨r, rfl, -⟩ | ⟨rfl, -⟩ | ⟨b, rfl, -⟩ | ⟨b, rfl, -⟩ | ⟨-, hreset⟩ := exec_otherSide_cases i hi s t h
  · exact ⟨rfl, rfl, rfl, rfl⟩
  · exact ⟨rfl, rfl, rfl, rfl⟩
  · exact ⟨rfl, rfl, rfl, rfl⟩
  · exact ⟨pushBytes_pend b s, pushBytes_acc b s, pushBytes_fault b s, pushBytes_cfg b s⟩
  · exact absurd hreset hne

/-! ## `utf8_valid` of a table

A run of the predicate reads the rest of the pattern in progress and then whole patterns; `Owed` says that without
the run, and the two go byte by byte together. -/

/-- The bytes lie in the ranges, one each. -/
def InRanges (bytes : List Byte) (ranges : List (Nat × Nat)) : Prop :=
  List.Forall₂ (fun (c : Byte) (range : Nat × Nat) => range.1 ≤ c.toNat ∧ c.toNat ≤ range.2) bytes ranges

/-- A concatenation of zero or more chunks, each matching a row (R117). -/
def Concatenation (rows : List Utf8Row) (bytes : List Byte) : Prop :=
  ∃ chunks : List (List Byte), bytes = chunks.flatten ∧ ∀ c ∈ chunks, ∃ r ∈ rows, matchesRow r c

/-- The bytes begin with the ranges `want` still owed and go on as a concatenation. -/
def Owed (rows : List Utf8Row) (want : List (Nat × Nat)) (bytes : List Byte) : Prop :=
  ∃ head more, bytes = head ++ more ∧ InRanges head want ∧ Concatenation rows more

theorem concatenation_nil (rows : List Utf8Row) : Concatenation rows [] := ⟨[], rfl, by simp⟩

@[simp] theorem owed_nil_iff (rows : List Utf8Row) (bytes : List Byte) :
    Owed rows [] bytes ↔ Concatenation rows bytes := by
  simp [Owed, InRanges]

theorem owed_cons_nil (rows : List Utf8Row) (r : Nat × Nat) (want : List (Nat × Nat)) : ¬ Owed rows (r :: want) [] := by
  rintro ⟨head, more, hbytes, hhead, -⟩
  obtain ⟨rfl, -⟩ := List.append_eq_nil_iff.mp hbytes.symm
  cases hhead

theorem owed_cons_cons_iff (rows : List Utf8Row) (r : Nat × Nat) (want : List (Nat × Nat)) (b : Byte)
    (rest : List Byte) : Owed rows (r :: want) (b :: rest) ↔ (r.1 ≤ b.toNat ∧ b.toNat ≤ r.2) ∧ Owed rows want rest := by
  constructor
  · rintro ⟨head, more, hbytes, hhead, hmore⟩
    cases hhead with
    | cons hc htail =>
      obtain ⟨rfl, rfl⟩ := List.cons.inj hbytes
      exact ⟨hc, _, more, rfl, htail, hmore⟩
  · rintro ⟨hc, head, more, rfl, hhead, hmore⟩
    exact ⟨b :: head, more, rfl, .cons hc hhead, hmore⟩

/-- A concatenation that is not empty begins with the first byte of a row, whose other ranges are then owed. -/
theorem concatenation_cons_iff (rows : List Utf8Row) (b : Byte) (rest : List Byte) :
    Concatenation rows (b :: rest) ↔ ∃ row ∈ rows, (row.lo ≤ b.toNat ∧ b.toNat ≤ row.hi) ∧ Owed rows row.tail rest := by
  constructor
  · rintro ⟨_ | ⟨c, chunks⟩, hbytes, hrows⟩
    · cases hbytes
    · obtain ⟨⟨row, hrow, _, tail, rfl, hlo, hhi, htail⟩, hchunks⟩ := List.forall_mem_cons.mp hrows
      obtain ⟨rfl, rfl⟩ := List.cons.inj hbytes
      exact ⟨row, hrow, ⟨hlo, hhi⟩, tail, chunks.flatten, rfl, htail, chunks, rfl, hchunks⟩
  · rintro ⟨row, hrow, ⟨hlo, hhi⟩, tail, -, rfl, htail, chunks, rfl, hrows⟩
    exact ⟨(b :: tail) :: chunks, rfl, List.forall_mem_cons.mpr ⟨⟨row, hrow, b, tail, rfl, hlo, hhi, htail⟩, hrows⟩⟩

/-- One byte of a run: it goes on with what the byte leaves owed. -/
theorem utf8Run_cons_iff (rows : List Utf8Row) (want : List (Nat × Nat)) (b : Byte) (rest : List Byte) :
    utf8Run rows [want] (b :: rest) = true ↔ ∃ next ∈ utf8Step rows b want, utf8Run rows [next] rest = true := by
  rw [utf8Run, List.flatMap_singleton, utf8Run_iff]

/-- A run succeeds exactly on the bytes that pay what is owed and go on as a concatenation. -/
theorem utf8Run_iff_owed (rows : List Utf8Row) (bytes : List Byte) (want : List (Nat × Nat)) :
    utf8Run rows [want] bytes = true ↔ Owed rows want bytes := by
  induction bytes generalizing want with
  | nil =>
    cases want with
    | nil => simp [utf8Run, concatenation_nil]
    | cons r want => simp [utf8Run, owed_cons_nil]
  | cons b rest ih =>
    simp only [utf8Run_cons_iff, mem_utf8Step, ih]
    cases want with
    | nil => simp [concatenation_cons_iff, and_assoc]
    | cons r want => simp [owed_cons_cons_iff, and_assoc]

end Sys2Proof.Machine

namespace Sys2Proof.Claims

open Sys2Proof.Machine

/-- Settles O27: a control frame bypasses `pend` and `acc` whatever they are. -/
theorem controlFramesAreMessages : Obligations.ControlFramesAreMessages := by
  refine ⟨fun m h L s hfin hf hL => ⟨?close, ?ping, ?pong⟩, fun p s => ?alone⟩
  case close => exact fun hb => exec_dec_control hfin hf hb (t := .close) rfl rfl rfl hL
  case ping => exact fun hb => exec_dec_control hfin hf hb (t := .ping) rfl rfl rfl hL
  case pong => exact fun hb => exec_dec_control hfin hf hb (t := .pong) rfl rfl rfl hL
  case alone =>
    exact ⟨reasmControl_fragmented _ p s, reasmControl_single _ p s, reasmControl_fragmented _ p s,
      reasmControl_single _ p s, reasmControl_fragmented _ p s, reasmControl_single _ p s⟩

/-- Settles O28, by the reassembler's answer to a Text frame while Idle. -/
theorem textFrame : Obligations.TextFrame := by
  refine ⟨fun m h L s hfin hf hp => ⟨fun hb hv => ?valid, fun hb hv => ?invalid, fun hb hfit => ?first⟩,
    fun p more s hp => reasmText_pending hp p more⟩
  case valid =>
    have hr := reasmText_valid (s := consumed m h L s) hp hv
    exact (exec_dec_data hfin hf hb hp .text rfl).trans (congrArg (afterFrame ∘ deliver) hr)
  case invalid =>
    have hr := reasmText_invalid (s := consumed m h L s) hp hv
    exact (exec_dec_data hfin hf hb hp .text rfl).trans (congrArg (afterFrame ∘ deliver) hr)
  case first => exact exec_dec_first_fits hfin hf hb hp .text rfl rfl hfit

/-- Settles O29, by the reassembler's answer to a Binary frame while Idle. -/
theorem binaryFrame : Obligations.BinaryFrame := by
  refine ⟨fun m h L s hfin hf hp => ⟨fun hb => ?single, fun hb hfit => ?first⟩,
    fun p more s hp => reasmBinary_pending hp p more⟩
  case single =>
    have hr := reasmBinary_single (s := consumed m h L s) hp (payload m h L s)
    exact (exec_dec_data hfin hf hb hp .binary rfl).trans (congrArg (afterFrame ∘ deliver) hr)
  case first => exact exec_dec_first_fits hfin hf hb hp .binary rfl rfl hfit

/-- Settles O30: an orphan, an append, and the two ends of a message; a partly buffered frame stops before step 10. -/
theorem continuationFrame : Obligations.ContinuationFrame := by
  refine ⟨fun m h L s hfin hf => ⟨?orphan, fun t a hp ha hfit => ⟨?more, ?valid, ?invalid⟩⟩, ?partly⟩
  case orphan =>
    intro hb hp
    have hidle := reasmCont_idle (s := consumed m h L s) hp
    obtain hb | hb := hb <;> rw [exec_dec_continuation hfin hf hb rfl, hidle, afterFrame_deliver_bad]
  case more =>
    intro hb
    rw [exec_dec_append hfin hf hb rfl hp ha]
    have hr := appendFragment_more (s := consumed m h L s) hfit t
    exact (congrArg (afterFrame ∘ deliver) hr).trans (afterFrame_deliver_absorb hf)
  case valid =>
    intro hb hv
    rw [exec_dec_append hfin hf hb rfl hp ha]
    have hr := (appendFragment_last (s := consumed m h L s) hfit t).trans (finishMessage_valid hv)
    exact congrArg (afterFrame ∘ deliver) hr
  case invalid =>
    rintro hb rfl hv
    rw [exec_dec_append hfin hf hb rfl hp ha]
    have hr := (appendFragment_last (s := consumed m h L s) hfit .text).trans (finishMessage_invalid hv)
    exact congrArg (afterFrame ∘ deliver) hr
  case partly =>
    intro s b0 b1 rest m h L hrx hb0 hf hlen hmax hpart
    have hrow : frameRow b0 = .frame .continuation := by obtain rfl | rfl := hb0 <;> rfl
    exact exec_dec_partial hf hrx (headerAllowed_continuation hrow s) (by simp [isControl]) hlen hmax hpart

/-- Settles O31: a buffer that does not fit is not written; unbounded, every buffer fits, in every row DEC executes, and
the other rows set no latch. -/
theorem accOverflowRaises : Obligations.AccOverflowRaises := by
  refine ⟨fun m h L s c hfin hf hcap => ⟨?create, ?append⟩, fun i s t hcap hs hexec => ?unbounded⟩
  case create =>
    intro hb hp hlong
    have hover : fitsCap s.cfg.accCap (payload m h L s).length = false := by simpa [hcap] using hlong
    obtain hb | hb := hb
    · exact exec_dec_first_overflow hfin hf hb hp .text rfl rfl hover
    · exact exec_dec_first_overflow hfin hf hb hp .binary rfl rfl hover
  case append =>
    intro t a hb hp ha hlong
    have hover : fitsCap s.cfg.accCap (a ++ payload m h L s).length = false := by
      rw [hcap, fitsCap_some]
      exact decide_eq_false (by omega)
    have hr := appendFragment_overflow (s := consumed m h L s) hover t
    obtain hb | hb := hb <;> rw [exec_dec_append hfin hf hb rfl hp ha, hr, afterFrame_deliver_bad]
  case unbounded =>
    cases hi : decodeSide i with
    | true => exact exec_decodeSide_fault_ne_accOverflow hi hcap hs hexec
    | false =>
      obtain rfl | hne := eq_or_ne i .reset
      · rw [exec_reset] at hexec
        cases hexec
        simp
      · obtain ⟨-, -, hfault, -⟩ := exec_otherSide_reassembler hi hne hexec
        rwa [hfault]

/-- Settles O42: a run of the table owes nothing at its start. -/
theorem utf8IsConcatenationOfPatterns : Obligations.Utf8IsConcatenationOfPatterns := by
  refine ⟨fun rows bytes => ?_, rfl⟩
  rw [utf8Valid_patterns, utf8Run_iff_owed, owed_nil_iff]
  rfl

/-- Settles O53. -/
theorem onlyDecodeAndResetMoveTheReassembler : Obligations.OnlyDecodeAndResetMoveTheReassembler :=
  fun _ _ _ hi hne h => exec_otherSide_reassembler hi hne h

end Sys2Proof.Claims
end

section
/-! PROOFS. The family of 44_frame_parser. First `ParseFrame` by the row byte 0 selects, then one iteration of DEC's
loop as the verdict of `ParseFrame` and step 10, the induction over DEC, the checks of the header in their order, and
DEC with bytes that arrive later and with other contents of the ports. -/

namespace Sys2Proof.Machine

open Sys2Proof.Claims

/-! ## Byte 0 by the masks of the listing -/

theorem frameRow_reserved_iff (b0 : Byte) :
    (frameRow b0 = .rsv1 ∨ frameRow b0 = .rsv2 ∨ frameRow b0 = .rsv3) ↔ b0 &&& 0x70#8 ≠ 0#8 := by
  revert b0; decide

theorem frameRow_unknownOpcode_iff (b0 : Byte) :
    (frameRow b0 = .opc6to7 ∨ frameRow b0 = .opc8to15) ↔ b0 &&& 0x70#8 = 0#8 ∧ 6 ≤ (b0 &&& 0x0F#8).toNat := by
  revert b0; decide

theorem frameRow_frame_iff (b0 : Byte) (t : FrameType) :
    frameRow b0 = .frame t ↔ b0 &&& 0x70#8 = 0#8 ∧ (b0 &&& 0x0F#8).truncate 4 = t.opcode := by
  cases t <;> revert b0 <;> decide

/-- Byte 0 has a reserved bit, or an opcode no type has, or names a frame type (R131, R132). -/
theorem byte0_cases (b0 : Byte) :
    b0 &&& 0x70#8 ≠ 0#8 ∨ (b0 &&& 0x70#8 = 0#8 ∧ 6 ≤ (b0 &&& 0x0F#8).toNat) ∨ ∃ t, frameRow b0 = .frame t := by
  cases hrow : frameRow b0 with
  | frame t => exact .inr (.inr ⟨t, rfl⟩)
  | rsv1 | rsv2 | rsv3 => exact .inl ((frameRow_reserved_iff b0).mp (by simp [hrow]))
  | opc6to7 | opc8to15 => exact .inr (.inl ((frameRow_unknownOpcode_iff b0).mp (by simp [hrow])))

theorem toNat_opcodeMask (b0 : Byte) : (b0 &&& 0x0F#8).toNat = ((b0 &&& 0x0F#8).truncate 4 : BitVec 4).toNat := by
  revert b0; decide

theorem highBit_eq_mask (b0 : Byte) : highBit b0 = decide (b0 &&& 0x80#8 ≠ 0#8) := by
  revert b0; decide

theorem opcode_toNat_le (t : FrameType) : t.opcode.toNat ≤ 5 := by
  cases t <;> decide

/-- A reserved bit raises at once, whatever follows (R131). -/
theorem frameStep_reserved {b0 : Byte} (h : b0 &&& 0x70#8 ≠ 0#8) (b1 : Byte) (s : State) :
    frameStep b0 b1 s = raiseError .reservedBitUsed s := by
  obtain hrow | hrow | hrow := (frameRow_reserved_iff b0).mpr h <;> simp only [frameStep, hrow] <;> rfl

/-- So does an opcode no type has (R132). -/
theorem frameStep_unknownOpcode {b0 : Byte} (hrsv : b0 &&& 0x70#8 = 0#8) (hopc : 6 ≤ (b0 &&& 0x0F#8).toNat)
    (b1 : Byte) (s : State) : frameStep b0 b1 s = raiseError .unknownOpcode s := by
  obtain hrow | hrow := (frameRow_unknownOpcode_iff b0).mpr ⟨hrsv, hopc⟩ <;> simp only [frameStep, hrow] <;> rfl

/-! ## ParseFrame -/

section
variable {s : State} {b0 b1 : Byte} {rest : List Byte} (hrx : s.rx = b0 :: b1 :: rest)
include hrx

theorem refParseFrame_reserved (h : b0 &&& 0x70#8 ≠ 0#8) : refParseFrame s = .bad .reservedBitUsed := by
  simp only [refParseFrame, hrx]
  rw [if_pos h]

theorem refParseFrame_unknownOpcode (hrsv : b0 &&& 0x70#8 = 0#8) (hopc : 6 ≤ (b0 &&& 0x0F#8).toNat) :
    refParseFrame s = .bad .unknownOpcode := by
  simp only [refParseFrame, hrx]
  rw [if_neg (not_not.mpr hrsv), if_pos (show 5 < _ from hopc)]

/-- Past steps 1 to 3 the listing is steps 4 to 9 for the type byte 0 names (R133 to R138). -/
theorem refParseFrame_of_frameRow {t : FrameType} (hrow : frameRow b0 = .frame t) :
    refParseFrame s = checkHeader t (highBit b0) (highBit b1) (low7 b1) s := by
  obtain ⟨hrsv, hopc⟩ := (frameRow_frame_iff b0 t).mp hrow
  have hle : ¬ 5 < (b0 &&& 0x0F#8).toNat := by
    rw [toNat_opcodeMask, hopc]
    exact not_lt.mpr (opcode_toNat_le t)
  simp only [refParseFrame, hrx, decodeLength_cons]
  rw [if_neg (not_not.mpr hrsv), if_neg hle, hopc, opcodeToType_opcode, ← highBit_eq_mask, ← hrx]
  simp only [← Option.isSome_iff_ne_none]
  rfl

end

theorem refParseFrame_short {s : State} (h : s.rx.length < 2) : refParseFrame s = .needMore := by
  rcases hrx : s.rx with _ | ⟨b0, _ | ⟨b1, rest⟩⟩
  · simp only [refParseFrame, hrx]
  · simp only [refParseFrame, hrx]
  · simp [hrx] at h

theorem exists_rx_cons {s : State} (h : ¬ s.rx.length < 2) : ∃ b0 b1 rest, s.rx = b0 :: b1 :: rest := by
  rcases hrx : s.rx with _ | ⟨b0, _ | ⟨b1, rest⟩⟩
  · simp [hrx] at h
  · simp [hrx] at h
  · exact ⟨b0, b1, rest, rfl⟩

/-- A header that `ParseFrame` accepts describes a frame that is whole in the buffer (R57, R138). -/
theorem refParseFrame_hdr {s : State} {hd : Hdr} (h : refParseFrame s = .hdr hd) :
    hd.total = hd.h + keyBytes hd.masked + hd.payloadLen ∧ hd.total ≤ s.rx.length := by
  by_cases hshort : s.rx.length < 2
  · rw [refParseFrame_short hshort] at h; cases h
  obtain ⟨b0, b1, rest, hrx⟩ := exists_rx_cons hshort
  obtain hrsv | ⟨hrsv, hopc⟩ | ⟨t, hrow⟩ := byte0_cases b0
  · rw [refParseFrame_reserved hrx hrsv] at h; cases h
  · rw [refParseFrame_unknownOpcode hrx hrsv hopc] at h; cases h
  · rw [refParseFrame_of_frameRow hrx hrow] at h
    obtain ⟨heq, -, -, -, -, -, hwhole⟩ := checkHeader_hdr h
    rw [heq]
    exact ⟨rfl, hwhole⟩

/-! ## One iteration of DEC's loop -/

/-- What the verdict of `ParseFrame` means for DEC: wait, raise, or step 10 (R139, R140). -/
def refFrame (s : State) : FrameEnd :=
  match refParseFrame s with
  | .needMore => .done .incomplete s
  | .bad k => raiseError k s
  | .hdr hd =>
    deliver (refReassemble hd.type (payloadAt s.rx hd.h hd.masked hd.payloadLen) hd.more (consume hd.total s))

theorem refFrame_needMore {s : State} (h : refParseFrame s = .needMore) : refFrame s = .done .incomplete s := by
  simp only [refFrame, h]

theorem refFrame_bad {s : State} {k : ErrKind} (h : refParseFrame s = .bad k) : refFrame s = raiseError k s := by
  simp only [refFrame, h]

theorem refFrame_hdr {s : State} {hd : Hdr} (h : refParseFrame s = .hdr hd) : refFrame s =
    deliver (refReassemble hd.type (payloadAt s.rx hd.h hd.masked hd.payloadLen) hd.more (consume hd.total s)) := by
  simp only [refFrame, h]

/-- The frame at the cursor is the listing's iteration: both raise in steps 2 and 3, or run steps 4 to 10. -/
theorem frameStep_eq_refFrame {s : State} {b0 b1 : Byte} {rest : List Byte} (hrx : s.rx = b0 :: b1 :: rest) :
    frameStep b0 b1 s = refFrame s := by
  obtain hrsv | ⟨hrsv, hopc⟩ | ⟨t, hrow⟩ := byte0_cases b0
  · rw [frameStep_reserved hrsv, refFrame_bad (refParseFrame_reserved hrx hrsv)]
  · rw [frameStep_unknownOpcode hrsv hopc, refFrame_bad (refParseFrame_unknownOpcode hrx hrsv hopc)]
  · have hparse := refParseFrame_of_frameRow hrx hrow
    rw [frameStep_of_frameRow hrow, runFrame]
    cases hcheck : checkHeader t (highBit b0) (highBit b1) (low7 b1) s with
    | needMore => exact (refFrame_needMore (hparse.trans hcheck)).symm
    | bad k => exact (refFrame_bad (hparse.trans hcheck)).symm
    | hdr hd =>
      obtain rfl : hd.type = t := by rw [(checkHeader_hdr hcheck).1]
      exact (refFrame_hdr (hparse.trans hcheck)).symm

/-- DEC is one iteration and what its end asks for, also where the buffer is short (R130, R140). -/
theorem exec_dec_eq_refFrame {s : State} (hf : s.fault = none) : exec .dec s = afterFrame (refFrame s) := by
  by_cases hshort : s.rx.length < 2
  · rw [refFrame_needMore (refParseFrame_short hshort)]
    exact execDec_short hf hshort
  · obtain ⟨b0, b1, rest, hrx⟩ := exists_rx_cons hshort
    rw [exec_dec_cons hf hrx, frameStep_eq_refFrame hrx]

theorem exec_dec_needMore {s : State} (hf : s.fault = none) (h : refParseFrame s = .needMore) :
    exec .dec s = decIncomplete s := by
  rw [exec_dec_eq_refFrame hf, refFrame_needMore h]
  rfl

theorem exec_dec_bad {s : State} {k : ErrKind} (hf : s.fault = none) (h : refParseFrame s = .bad k) :
    exec .dec s = decError k s := by
  rw [exec_dec_eq_refFrame hf, refFrame_bad h]
  rfl

theorem exec_dec_latched {s : State} {k : ErrKind} (h : s.fault = some k) :
    exec .dec s = .next (respond (.dec (.protocolError k)) s) := by
  simp only [exec, execDec, h]

theorem decFrame_of_fault_none {s : State} (hf : s.fault = none) (frame : State → FrameEnd) :
    decFrame frame s = afterFrame (frame s) := by
  simp only [decFrame, hf]

/-! ## The induction over DEC -/

/-- What is known of a frame is known of an iteration: it waits on a short buffer, and else is the frame at the
cursor. -/
theorem refFrame_cases (s : State) : refFrame s = .done .incomplete s ∨ ∃ b0 b1, refFrame s = frameStep b0 b1 s := by
  by_cases hshort : s.rx.length < 2
  · exact .inl (refFrame_needMore (refParseFrame_short hshort))
  · obtain ⟨b0, b1, rest, hrx⟩ := exists_rx_cons hshort
    exact .inr ⟨b0, b1, (frameStep_eq_refFrame hrx).symm⟩

theorem refFrame_done_out {s s' : State} {r : DecResult} (h : refFrame s = .done r s') : s'.out = s.out := by
  obtain hshort | ⟨b0, b1, hframe⟩ := refFrame_cases s
  · rw [hshort] at h; cases h; rfl
  · exact frameStep_done_out (hframe ▸ h)

theorem refFrame_done_incomplete {s s' : State} (h : refFrame s = .done .incomplete s') : s' = s := by
  obtain hshort | ⟨b0, b1, hframe⟩ := refFrame_cases s
  · rw [hshort] at h; cases h; rfl
  · exact frameStep_done_incomplete (hframe ▸ h)

/-- An absorbed frame leaves latch and results, a coherent state, and a buffer shorter by two bytes at least (R140). -/
theorem refFrame_absorbed {s s' : State} (h : refFrame s = .absorbed s') :
    s'.fault = s.fault ∧ s'.out = s.out ∧ s'.coherent = true ∧ s'.rx.length + 2 ≤ s.rx.length := by
  obtain hshort | ⟨b0, b1, hframe⟩ := refFrame_cases s
  · rw [hshort] at h; cases h
  · have hshorter := frameStep_absorbed_shorter (hframe ▸ h)
    obtain ⟨n, d, whole, -, -, rfl, -⟩ := frameStep_absorbed (hframe ▸ h)
    exact ⟨rfl, rfl, rfl, hshorter⟩

theorem exec_dec_done {s s' : State} {r : DecResult} (hf : s.fault = none) (h : refFrame s = .done r s') :
    exec .dec s = .next (respond (.dec r) s') := by
  rw [exec_dec_eq_refFrame hf, h]
  rfl

theorem exec_dec_absorbed {s s' : State} (hf : s.fault = none) (h : refFrame s = .absorbed s') :
    exec .dec s = exec .dec s' := by
  obtain ⟨hfault, -⟩ := refFrame_absorbed h
  rw [exec_dec_eq_refFrame hf, h]
  exact (execDec_of_fault_none (hfault.trans hf)).symm

theorem exec_dec_stop {s : State} {f : Fault} (hf : s.fault = none) (h : refFrame s = .stop f) :
    exec .dec s = .fault f := by
  rw [exec_dec_eq_refFrame hf, h]
  rfl

/-- The induction over DEC: what holds where an iteration ends DEC, and before an absorbed frame when it holds after it,
holds of every state without a latched fault. -/
theorem dec_induct {P : State → Prop} (hdone : ∀ s r s', s.fault = none → refFrame s = .done r s' → P s)
    (hstop : ∀ s f, s.fault = none → refFrame s = .stop f → P s)
    (habs : ∀ s s', s.fault = none → refFrame s = .absorbed s' → P s' → P s) (s : State) (hf : s.fault = none) :
    P s := by
  induction hlen : s.rx.length using Nat.strong_induction_on generalizing s with
  | _ len ih =>
    cases hend : refFrame s with
    | done r s' => exact hdone s r s' hf hend
    | stop f => exact hstop s f hf hend
    | absorbed s' =>
      obtain ⟨hfault, -, -, hshorter⟩ := refFrame_absorbed hend
      exact habs s s' hf hend (ih _ (by omega) s' (hfault.trans hf) rfl)

/-! ## The loop of the listing -/

/-- How DEC goes on after one iteration, when `go` is the rest of its loop. -/
def FrameEnd.continueWith (go : State → Host.Outcome State Fault Refusal) :
    FrameEnd → Host.Outcome State Fault Refusal
  | .done r s => .next (respond (.dec r) s)
  | .absorbed s => go s
  | .stop f => .fault f

theorem refLoop_succ (fuel : Nat) (s : State) : refLoop (fuel + 1) s = (refFrame s).continueWith (refLoop fuel) := by
  rw [refLoop]
  split_ifs with hlen
  · cases hparse : refParseFrame s with
    | needMore => rw [refFrame_needMore hparse]; rfl
    | bad k => rw [refFrame_bad hparse]; rfl
    | hdr hd =>
      rw [refFrame_hdr hparse]
      dsimp only
      cases refReassemble hd.type (payloadAt s.rx hd.h hd.masked hd.payloadLen) hd.more (consume hd.total s) <;> rfl
  · rw [refFrame_needMore (refParseFrame_short (by omega))]
    rfl

/-- `refLoop` with an iteration for every two bytes is DEC: an iteration that continues leaves two bytes fewer. -/
theorem refLoop_eq_exec_dec (fuel : Nat) {s : State} (hf : s.fault = none) (hfuel : s.rx.length < 2 * fuel) :
    refLoop fuel s = exec .dec s := by
  induction fuel generalizing s with
  | zero => omega
  | succ fuel ih =>
    rw [refLoop_succ]
    cases hend : refFrame s with
    | done r s' => exact (exec_dec_done hf hend).symm
    | stop f => exact (exec_dec_stop hf hend).symm
    | absorbed s' =>
      obtain ⟨hfault, -, -, hshorter⟩ := refFrame_absorbed hend
      rw [exec_dec_absorbed hf hend]
      exact ih (hfault.trans hf) (by omega)

/-! ## The checks of the header -/

theorem checkHeader_fragmented {t : FrameType} {f : Bool} {s : State} (hmore : moreFlag s.cfg.finPolicy f = true)
    (hctl : isControl t = true) (m : Bool) (l : BitVec 7) :
    checkHeader t f m l s = .bad .fragmentedControlFrame := by
  rw [checkHeader, if_pos ⟨hmore, hctl⟩]

theorem checkHeader_pending {t : FrameType} {s : State} (hdata : isData t = true) (hp : s.pend.isSome = true)
    (f m : Bool) (l : BitVec 7) : checkHeader t f m l s = .bad .dataFrameInsteadContinuation := by
  have hctl : ¬ isControl t = true := fun h => by simp [isData_of_isControl h] at hdata
  rw [checkHeader, if_neg fun h => hctl h.2, if_pos ⟨hdata, hp⟩]

/-- Of the whole state step 6 alone looks at `pend`, and only for Text and Binary (R135). -/
theorem checkHeader_of_not_data {t : FrameType} (hdata : isData t = false) (p : Option DataType) (f m : Bool)
    (l : BitVec 7) (s : State) : checkHeader t f m l { s with pend := p } = checkHeader t f m l s := by
  simp only [checkHeader, hdata, Bool.false_eq_true, false_and, if_false]
  rfl

/-- How the answer of the length decode decides the header (R136 to R138). -/
def lengthVerdict (t : FrameType) (more : Bool) (s : State) : LenResult → ParseResult
  | .needMore => .needMore
  | .bad k => .bad k
  | .len h m L => checkLength t more h m L s

/-- Past steps 2 to 6 the length decode decides. -/
theorem refParseFrame_of_headerAllowed {s : State} {b0 b1 : Byte} {rest : List Byte} {t : FrameType}
    (hrx : s.rx = b0 :: b1 :: rest) (ha : HeaderAllowed b0 t s) :
    refParseFrame s = lengthVerdict t (moreOf s.cfg.finPolicy b0) s (decodeLength s.cfg.highLen s.rx) := by
  obtain ⟨hrow, hstep5, hstep6⟩ := ha
  rw [moreOf] at hstep5 ⊢
  rw [refParseFrame_of_frameRow hrx hrow, checkHeader, if_neg hstep5, if_neg hstep6, hrx, decodeLength_cons]
  rfl

theorem checkLength_controlTooLong {t : FrameType} {L : Nat} (hctl : isControl t = true) (hL : 125 < L) (more : Bool)
    (h : Nat) (m : Bool) (s : State) : checkLength t more h m L s = .bad .controlFramePayloadTooLong :=
  if_pos ⟨hctl, hL⟩

theorem checkLength_tooLong {t : FrameType} {m : Bool} {h L : Nat} {s : State} (more : Bool)
    (hctl : isControl t = true → L ≤ 125) (hmax : s.cfg.maxFs < h + keyBytes m + L) :
    checkLength t more h m L s = .bad .tooLong := by
  rw [checkLength, if_neg fun hc => absurd (hctl hc.1) (by omega), frameTotal, if_pos hmax]

theorem checkLength_ne_controlTooLong {t : FrameType} {L : Nat} (hctl : isControl t = true → L ≤ 125) (more : Bool)
    (h : Nat) (m : Bool) (s : State) : checkLength t more h m L s ≠ .bad .controlFramePayloadTooLong := by
  rw [checkLength, if_neg fun hc => absurd (hctl hc.1) (by omega)]
  split_ifs <;> simp

/-! ## A serialised frame -/

/-- The body of a frame has the key bytes and the payload (R64). -/
theorem serialBody_length (mk : Option Key) (p : List Byte) :
    (serialBody mk p).length = keyBytes mk.isSome + p.length := by
  cases mk with
  | none => simp [serialBody, keyBytes]
  | some k => simp [serialBody, keyBytes, keyList]; omega

/-- The length field of a serialised frame says where the frame ends (R57, R94). -/
theorem decodeLength_serialize {fin more : Bool} {opc : BitVec 4} {mk : Option Key} {p bytes : List Byte}
    (h : serialize fin more opc mk p = some bytes) (policy : HighLenPolicy) :
    ∃ hdr, decodeLength policy bytes = .len hdr mk.isSome p.length ∧
      hdr + keyBytes mk.isSome + p.length = bytes.length := by
  unfold serialize at h
  split at h
  next len hlen =>
    cases h
    refine ⟨1 + len.length, decodeLengthOfEncodeLength _ _ policy _ len _ hlen, ?_⟩
    simp [serialBody_length]
    omega
  · cases h

/-- The length field of the first bytes of a buffer waits, or is the length field of the buffer. -/
theorem decodeLength_take (policy : HighLenPolicy) (bytes : List Byte) (n : Nat) :
    decodeLength policy (bytes.take n) = .needMore ∨
      decodeLength policy (bytes.take n) = decodeLength policy bytes := by
  refine or_iff_not_imp_left.mpr fun hwait => ?_
  simpa using (decodeLength_append hwait (bytes.drop n)).symm

/-! ## Bytes that arrive later -/

theorem keyAt_append {rx : List Byte} {h : Nat} (hle : h + 4 ≤ rx.length) (more : List Byte) :
    keyAt (rx ++ more) h = keyAt rx h := by
  simp only [keyAt]
  rw [List.getD_append _ _ _ _ (by omega), List.getD_append _ _ _ _ (by omega), List.getD_append _ _ _ _ (by omega),
    List.getD_append _ _ _ _ (by omega)]

theorem payloadAt_append {rx : List Byte} {h L : Nat} {m : Bool} (hle : h + keyBytes m + L ≤ rx.length)
    (more : List Byte) : payloadAt (rx ++ more) h m L = payloadAt rx h m L := by
  cases m with
  | false => exact slice_append_of_le (by simpa [keyBytes] using hle) more
  | true =>
    have hle : h + 4 + L ≤ rx.length := hle
    rw [payloadAt_masked, payloadAt_masked, keyAt_append (by omega), slice_append_of_le hle]

theorem consume_appendRx {n : Nat} {s : State} (h : n ≤ s.rx.length) (more : List Byte) :
    consume n (appendRx more s) = appendRx more (consume n s) := by
  simp only [consume, appendRx, List.drop_append_of_le_length h]

theorem deliver_mapState_appendRx (more : List Byte) (a : ReasmEnd) :
    deliver (a.mapState (appendRx more)) = (deliver a).mapState (appendRx more) := by
  cases a <;> rfl

/-- An iteration that does not wait does the same with more bytes behind the frame (R45, R147). -/
theorem refFrame_appendRx {s : State} (h : refParseFrame s ≠ .needMore) (more : List Byte) :
    refFrame (appendRx more s) = (refFrame s).mapState (appendRx more) := by
  have hstable := refParseFrame_appendRx h more
  cases hparse : refParseFrame s with
  | needMore => exact absurd hparse h
  | bad k => rw [refFrame_bad hparse, refFrame_bad (hstable.trans hparse)]; rfl
  | hdr hd =>
    obtain ⟨htotal, hwhole⟩ := refParseFrame_hdr hparse
    rw [refFrame_hdr hparse, refFrame_hdr (hstable.trans hparse), appendRx_rx, payloadAt_append (by omega),
      consume_appendRx hwhole, ← deliver_mapState_appendRx]
    have through := refReassemble_mapState (f := appendRx more) (fun _ => rfl) (fun _ => rfl) (fun _ => rfl)
      (fun _ _ _ => rfl) hd.type (payloadAt s.rx hd.h hd.masked hd.payloadLen) hd.more (consume hd.total s)
    exact congrArg deliver through

theorem refFrame_absorbed_appendRx {s s' : State} (h : refFrame s = .absorbed s') (more : List Byte) :
    refFrame (appendRx more s) = .absorbed (appendRx more s') := by
  rw [refFrame_appendRx (fun hwait => by rw [refFrame_needMore hwait] at h; cases h), h]
  rfl

/-! ## DEC answers -/

/-- In a state that meets R13 DEC answers: only a pending type without its buffer stops the model (log 8). -/
theorem refFrame_ne_stop {s : State} (hs : s.coherent = true) (f : Fault) : refFrame s ≠ .stop f := by
  intro hstop
  cases hparse : refParseFrame s with
  | needMore => rw [refFrame_needMore hparse] at hstop; cases hstop
  | bad k => rw [refFrame_bad hparse] at hstop; cases hstop
  | hdr hd =>
    rw [refFrame_hdr hparse] at hstop
    obtain ⟨_, _, hr⟩ | ⟨_, _, hr⟩ | ⟨_, _, hr, -⟩ | ⟨_, -, hr⟩ | ⟨_, hr, -⟩ | ⟨hincoherent, -⟩ :=
      refReassemble_cases hd.type (payloadAt s.rx hd.h hd.masked hd.payloadLen) hd.more (consume hd.total s)
    case inr.inr.inr.inr.inr => exact Bool.false_ne_true (hincoherent.symm.trans hs)
    all_goals rw [hr] at hstop; cases hstop

theorem exec_dec_completes {s : State} (hf : s.fault = none) (hs : s.coherent = true) :
    ∃ t, exec .dec s = .next t := by
  refine dec_induct (P := fun u => u.coherent = true → ∃ t, exec .dec u = .next t) ?done ?stop ?absorbed s hf hs
  case done => exact fun u r u' huf hend _ => ⟨_, exec_dec_done huf hend⟩
  case stop => exact fun u f huf hend hu => absurd hend (refFrame_ne_stop hu f)
  case absorbed =>
    intro u u' huf hend ih _
    obtain ⟨-, -, hcoherent, -⟩ := refFrame_absorbed hend
    rw [exec_dec_absorbed huf hend]
    exact ih hcoherent

/-! ## DEC does not read the ports -/

theorem refFrame_withPorts (ops : List Request) (tx : List Byte) (out : List Response) (s : State) :
    refFrame (s.withPorts ops tx out) = (refFrame s).mapState (State.withPorts ops tx out) := by
  by_cases hshort : s.rx.length < 2
  · have hports := refFrame_needMore (refParseFrame_short (s := s.withPorts ops tx out) hshort)
    rw [hports, refFrame_needMore (refParseFrame_short hshort)]
    rfl
  · obtain ⟨b0, b1, rest, hrx⟩ := exists_rx_cons hshort
    rw [← frameStep_eq_refFrame hrx, ← frameStep_eq_refFrame (s := s.withPorts ops tx out) hrx, frameStep_withPorts]

/-- From `s` to `t` one result was added, and with other ports DEC adds it there and retires one request there. -/
def SameOnAnyPorts (s t : State) : Prop :=
  ∃ r, t.out = s.out ++ [r] ∧ ∀ ops tx out,
    exec .dec (s.withPorts ops tx out) = .next (t.withPorts ops.tail tx (out ++ [r]))

/-- DEC does the same whatever stands on the ports (R147). -/
theorem exec_dec_withPorts {s t : State} (h : exec .dec s = .next t) : SameOnAnyPorts s t := by
  cases hf : s.fault with
  | some k =>
    rw [exec_dec_latched hf] at h
    cases h
    exact ⟨.dec (.protocolError k), rfl, fun ops tx out => exec_dec_latched (s := s.withPorts ops tx out) hf⟩
  | none =>
    refine dec_induct (P := fun u => exec .dec u = .next t → SameOnAnyPorts u t) ?done ?stop ?absorbed s hf h
    case done =>
      intro u r u' huf hend hnext
      rw [exec_dec_done huf hend] at hnext
      cases hnext
      refine ⟨.dec r, by simp [refFrame_done_out hend], fun ops tx out => ?_⟩
      exact exec_dec_done (s := u.withPorts ops tx out) huf (by rw [refFrame_withPorts, hend]; rfl)
    case stop =>
      intro u f huf hend hnext
      rw [exec_dec_stop huf hend] at hnext
      cases hnext
    case absorbed =>
      intro u u' huf hend ih hnext
      obtain ⟨-, hout, -, -⟩ := refFrame_absorbed hend
      obtain ⟨r, hr, hports⟩ := ih ((exec_dec_absorbed huf hend).symm.trans hnext)
      refine ⟨r, hout ▸ hr, fun ops tx out => ?_⟩
      rw [← hports]
      exact exec_dec_absorbed (s := u.withPorts ops tx out) huf (by rw [refFrame_withPorts, hend]; rfl)

theorem sameBlock_withPorts (ops : List Request) (tx : List Byte) (out : List Response) (s : State) :
    s.sameBlock (s.withPorts ops tx out) := ⟨rfl, rfl, rfl, rfl, rfl⟩

theorem eq_withPorts_of_sameBlock {s s' : State} (h : s.sameBlock s') : s' = s.withPorts s'.ops s'.tx s'.out := by
  obtain ⟨hcfg, hrx, hpend, hacc, hfault⟩ := h
  simp only [State.withPorts, hcfg, hrx, hpend, hacc, hfault]

/-! ## How the stream is cut into pushes -/

/-- DEC from `s` and DEC from `t` both answer, with the same result and the same block. -/
def SameDec (s t : State) : Prop :=
  ∃ u v r, exec .dec s = .next u ∧ exec .dec t = .next v ∧ u.sameBlock v ∧ u.out = s.out ++ [r] ∧ v.out = t.out ++ [r]

/-- After an Incomplete and a push DEC does what it does after the push alone: the frames absorbed before are absorbed
again, and the frame that had to wait is met in the same block (R147). -/
theorem sameDec_appendRx_of_incomplete {s t : State} (bytes : List Byte) (hf : s.fault = none)
    (hs : s.coherent = true) (h : exec .dec s = .next t) (hout : t.out = s.out ++ [.dec .incomplete]) :
    SameDec (appendRx bytes s) (appendRx bytes t) := by
  refine dec_induct (P := fun w => w.coherent = true → exec .dec w = .next t → t.out = w.out ++ [.dec .incomplete] →
    SameDec (appendRx bytes w) (appendRx bytes t)) ?done ?stop ?absorbed s hf hs h hout
  case done =>
    intro w r w' hwf hend hw hnext hans
    rw [exec_dec_done hwf hend] at hnext
    cases hnext
    obtain rfl : r = .incomplete := by simpa [refFrame_done_out hend] using hans
    obtain rfl := refFrame_done_incomplete hend
    obtain ⟨u, hu⟩ := exec_dec_completes (s := appendRx bytes w') hwf hw
    obtain ⟨r, hr, hports⟩ := exec_dec_withPorts hu
    have hv := hports w'.ops.tail w'.tx (w'.out ++ [.dec .incomplete])
    exact ⟨u, _, r, hu, hv, sameBlock_withPorts _ _ _ _, hr, rfl⟩
  case stop =>
    intro w f hwf hend hw
    exact absurd hend (refFrame_ne_stop hw f)
  case absorbed =>
    intro w w' hwf hend ih _ hnext hans
    obtain ⟨-, hwout, hcoherent, -⟩ := refFrame_absorbed hend
    rw [SameDec, exec_dec_absorbed (s := appendRx bytes w) hwf (refFrame_absorbed_appendRx hend bytes), appendRx_out,
      ← hwout]
    exact ih hcoherent ((exec_dec_absorbed hwf hend).symm.trans hnext) (hwout ▸ hans)

end Sys2Proof.Machine

namespace Sys2Proof.Claims

open Sys2Proof.Machine

/-- Settles O6: the machine's loop and the listing's go through the same iterations. -/
theorem decMatchesPseudocode : Obligations.DecMatchesPseudocode := by
  intro s
  cases hf : s.fault with
  | some k => rw [exec_dec_latched hf]; simp only [refDec, hf]
  | none => simp only [refDec, hf, refLoop_eq_exec_dec (s.rx.length / 2 + 1) hf (by omega)]

/-- Settles O23: step 6 raises for a data type while a message is pending, and no step looks at `pend` for another. -/
theorem dataFrameWhilePendingRaises : Obligations.DataFrameWhilePendingRaises := by
  refine ⟨fun s b0 b1 rest hrx hb0 hp hf => ?data, fun s b0 b1 rest hrx hb0 => ?other⟩
  case data =>
    obtain ⟨t, hrow, hdata⟩ : ∃ t, frameRow b0 = .frame t ∧ isData t = true := by
      simp only [List.mem_cons, List.not_mem_nil, or_false] at hb0
      obtain rfl | rfl | rfl | rfl := hb0
      exacts [⟨.text, rfl, rfl⟩, ⟨.text, rfl, rfl⟩, ⟨.binary, rfl, rfl⟩, ⟨.binary, rfl, rfl⟩]
    exact exec_dec_bad hf ((refParseFrame_of_frameRow hrx hrow).trans (checkHeader_pending hdata hp _ _ _))
  case other =>
    obtain ⟨t, hrow, hdata⟩ : ∃ t, frameRow b0 = .frame t ∧ isData t = false := by
      simp only [List.mem_cons, List.not_mem_nil, or_false] at hb0
      obtain rfl | rfl | rfl | rfl | rfl := hb0
      exacts [⟨.continuation, rfl, rfl⟩, ⟨.continuation, rfl, rfl⟩, ⟨.close, rfl, rfl⟩, ⟨.ping, rfl, rfl⟩,
        ⟨.pong, rfl, rfl⟩]
    rw [refParseFrame_of_frameRow hrx hrow, refParseFrame_of_frameRow (s := { s with pend := none }) hrx hrow]
    exact (checkHeader_of_not_data hdata none _ _ _ s).symm

/-- Settles O24: the length decode decides, and its length is compared with 125 for a control frame only. -/
theorem controlPayloadTooLongRaises : Obligations.ControlPayloadTooLongRaises := by
  intro s b0 b1 rest t hrx ha hf
  have hparse := refParseFrame_of_headerAllowed hrx ha
  refine ⟨fun hlen => ?wait, fun k hlen => ?bad, fun h m L hlen => ⟨fun hctl hL => ?long, fun hok => ?pass⟩⟩
  case wait => exact exec_dec_needMore hf (by rw [hparse, hlen]; rfl)
  case bad => exact exec_dec_bad hf (by rw [hparse, hlen]; rfl)
  case long => exact exec_dec_bad hf (by rw [hparse, hlen]; exact checkLength_controlTooLong hctl hL _ _ _ _)
  case pass =>
    have hctl : isControl t = true → L ≤ 125 := fun hc => hok.resolve_left (by simp [hc])
    rw [hparse, hlen]
    exact checkLength_ne_controlTooLong hctl _ _ _ _

/-- Settles O25: the total is compared with MAXFS first, then with the buffer. -/
theorem tooLongOrIncomplete : Obligations.TooLongOrIncomplete := by
  intro s b0 b1 rest t h m L hrx ha hf hlen hctl
  refine ⟨fun hmax => exec_dec_bad hf ?_, exec_dec_partial hf hrx ha hctl hlen⟩
  rw [refParseFrame_of_headerAllowed hrx ha, hlen]
  exact checkLength_tooLong _ hctl hmax

/-- Settles O55: fewer than two bytes, a length field that waits, or a frame whose end is not buffered. -/
theorem properPrefixIsIncomplete : Obligations.ProperPrefixIsIncomplete := by
  intro ty more mk p bytes n s b0 hser hfin hhead ha hctl hmax hn hrx hf
  have hlen : s.rx.length = n := by rw [hrx, List.length_take]; omega
  by_cases hshort : s.rx.length < 2
  · exact exec_dec_needMore hf (refParseFrame_short hshort)
  obtain ⟨c0, b1, rest, hcons⟩ := exists_rx_cons hshort
  obtain rfl : c0 = b0 := by
    have htake : (bytes.take n).head? = some c0 := by rw [← hrx, hcons]; rfl
    rw [List.head?_take, if_neg (by omega), hhead] at htake
    exact (Option.some.inj htake).symm
  obtain hwait | hfield := decodeLength_take s.cfg.highLen bytes n
  · refine exec_dec_needMore hf ?_
    rw [refParseFrame_of_headerAllowed hcons ha, hrx, hwait]
    rfl
  · obtain ⟨hdr, hdec, htotal⟩ := decodeLength_serialize hser s.cfg.highLen
    exact exec_dec_partial hf hcons ha hctl (by rw [hrx, hfield, hdec]) (by omega) (by omega)

/-- Settles O57, by the induction over the first DEC; under a latched fault no DEC answers Incomplete. -/
theorem chunkingDoesNotMatter : Obligations.ChunkingDoesNotMatter := by
  intro s t bytes hs h hout
  cases hf : s.fault with
  | some k =>
    rw [exec_dec_latched hf] at h
    cases h
    simp at hout
  | none => exact sameDec_appendRx_of_incomplete bytes hf hs h hout

/-- Settles O58: two states with the same block differ in their ports alone. -/
theorem decDependsOnTheBlockOnly : Obligations.DecDependsOnTheBlockOnly := by
  intro s s' t hsame h
  obtain ⟨r, hr, hports⟩ := exec_dec_withPorts h
  rw [eq_withPorts_of_sameBlock hsame]
  exact ⟨_, r, hports _ _ _, sameBlock_withPorts _ _ _ _, hr, rfl⟩

/-- Settles O15. -/
theorem latchedFaultRepeats : Obligations.LatchedFaultRepeats :=
  fun _ _ hf => exec_dec_latched hf

/-- Settles O18. -/
theorem shortBufferIncomplete : Obligations.ShortBufferIncomplete :=
  fun _ hf hshort => exec_dec_needMore hf (refParseFrame_short hshort)

/-- Settles O19. -/
theorem reservedBitRaises : Obligations.ReservedBitRaises :=
  fun _ _ _ _ hrx hrsv hf => exec_dec_bad hf (refParseFrame_reserved hrx hrsv)

/-- Settles O20. -/
theorem unknownOpcodeRaises : Obligations.UnknownOpcodeRaises :=
  fun _ _ _ _ hrx hrsv hopc hf => exec_dec_bad hf (refParseFrame_unknownOpcode hrx hrsv hopc)

/-- Settles O21: each row raises its kind before it reads anything. -/
theorem illegalRowsTakeTheirException : Obligations.IllegalRowsTakeTheirException := by
  intro f m l s hf
  exact ⟨fun _ => decFrame_of_fault_none hf illegalRsv1, fun _ => decFrame_of_fault_none hf illegalRsv2,
    fun _ => decFrame_of_fault_none hf illegalRsv3, fun _ => decFrame_of_fault_none hf illegalOpc6to7,
    fun _ => decFrame_of_fault_none hf illegalOpc8to15⟩

/-- Settles O22: step 5 needs byte 0 alone. -/
theorem fragmentedControlRaises : Obligations.FragmentedControlRaises := by
  intro s b0 b1 rest hrx hb0 hfin hf
  obtain ⟨t, hrow, hctl, hraw⟩ : ∃ t, frameRow b0 = .frame t ∧ isControl t = true ∧ highBit b0 = true := by
    simp only [List.mem_cons, List.not_mem_nil, or_false] at hb0
    obtain rfl | rfl | rfl := hb0
    exacts [⟨.close, rfl, rfl, rfl⟩, ⟨.ping, rfl, rfl, rfl⟩, ⟨.pong, rfl, rfl, rfl⟩]
  refine exec_dec_bad hf ((refParseFrame_of_frameRow hrx hrow).trans (checkHeader_fragmented ?_ hctl _ _))
  rw [moreFlag, hfin, hraw]
  rfl

/-- Settles O48: a push fits RXBUF_CAP and is appended, or does not and is refused. -/
theorem pushAppendsOrIsRefused : Obligations.PushAppendsOrIsRefused := by
  intro bytes s
  rw [exec_rxPush]
  refine ⟨fun hcap => ?unbounded, fun c hcap => ⟨fun hfit => ?fits, fun hover => ?refused⟩⟩
  case unbounded => rw [pushBytes_fits (by rw [hcap, fitsCap_none])]; rfl
  case fits => rw [pushBytes_fits (by rw [hcap, fitsCap_some, decide_eq_true hfit])]; rfl
  case refused => rw [pushBytes_refused (by rw [hcap, fitsCap_some, decide_eq_false (by omega)])]

end Sys2Proof.Claims
end

section
/-! PROOFS. The family of 45_encoder. First the general rule ENC on a supported and on an unsupported type, then the
five encode operations as that rule, then the length of a serialised frame, and last what DEC reads from one. -/

namespace Sys2Proof.Machine

open Sys2Proof.Claims

/-! ## ENC by its type -/

theorem encodableLength_iff (p : List Byte) : encodableLength p = true ↔ p.length < 4294967296 :=
  decide_eq_true_iff

/-- The type of an encode operation goes out as its own opcode (R71). -/
theorem typeToOpcode_opcode {ty : FrameType} (hty : ty ≠ .continuation) : typeToOpcode ty.opcode = .ok ty.opcode := by
  cases ty with
  | continuation => exact absurd rfl hty
  | close | ping | pong | text | binary => rfl

/-- The parts of a serialised frame (R64). -/
theorem exists_encodeLength_of_serialize {fin more : Bool} {opc : BitVec 4} {mk : Option Key} {p bytes : List Byte}
    (h : serialize fin more opc mk p = some bytes) :
    ∃ len, encodeLength p.length (maskValue mk.isSome) = some len ∧
      bytes = serialByte0 fin more opc :: (len ++ serialBody mk p) := by
  unfold serialize at h
  split at h
  next len hlen => cases h; exact ⟨len, hlen, rfl⟩
  · cases h

/-- A supported type emits the frame `Serialize` gives (R150). -/
theorem encGeneral_of_serialize {ty : FrameType} (hty : ty ≠ .continuation) {p bytes : List Byte} {e : Bool} {k : Key}
    {s : State} (hp : p.length < 4294967296)
    (hs : serialize s.cfg.finPolicy false ty.opcode (encKey e k) p = some bytes) :
    encGeneral ty.opcode p e k s = .next (respond (.enc (.frame bytes)) (emitTx bytes s)) := by
  rw [encGeneral, if_pos ((encodableLength_iff p).mpr hp), typeToOpcode_opcode hty]
  simp only [hs]

/-- An unsupported type emits nothing (R156). -/
theorem encGeneral_unsupported {code : BitVec 4} (hcode : ¬ (1 ≤ code.toNat ∧ code.toNat ≤ 5)) {p : List Byte}
    (hp : p.length < 4294967296) (e : Bool) (k : Key) (s : State) :
    encGeneral code p e k s = .next (respond (.enc (.error .unknownFrameType)) s) := by
  rw [encGeneral, if_pos ((encodableLength_iff p).mpr hp), typeToOpcode, if_neg hcode]

/-! ## The five encode operations -/

@[simp] theorem encKey_isSome (e : Bool) (k : Key) : (encKey e k).isSome = e := by
  cases e <;> rfl

theorem serialBody_encKey (e : Bool) (k : Key) (p : List Byte) : serialBody (encKey e k) p = wireBody p e k := by
  cases e <;> rfl

theorem serialize_encKey {p len : List Byte} {e : Bool} (hlen : encodeLength p.length (maskValue e) = some len)
    (fin more : Bool) (opc : BitVec 4) (k : Key) :
    serialize fin more opc (encKey e k) p = some (serialByte0 fin more opc :: (len ++ wireBody p e k)) := by
  simp only [serialize, encKey_isSome, hlen, serialBody_encKey]

/-- With FIN_POLICY false byte 0 of an emitted frame is the opcode alone (R151 to R155). -/
theorem encGeneral_frame {ty : FrameType} (hty : ty ≠ .continuation) {p len : List Byte} {e : Bool} {s : State}
    (hp : p.length < 4294967296) (hfin : s.cfg.finPolicy = false)
    (hlen : encodeLength p.length (maskValue e) = some len) (k : Key) :
    encGeneral ty.opcode p e k s =
      .next (respond (.enc (.frame (byte0Of false ty.opcode :: (len ++ wireBody p e k))))
        (emitTx (byte0Of false ty.opcode :: (len ++ wireBody p e k)) s)) := by
  rw [encGeneral_of_serialize hty hp (serialize_encKey hlen _ _ _ k), hfin]
  rfl

/-- The encode operations with the frame type each emits (R151 to R155). -/
def encodeRows (p : List Byte) (e : Bool) (k : Key) : List (Instr × FrameType) :=
  [(.encClose p e k, .close), (.encPing p e k, .ping), (.encPong p e k, .pong), (.encText p e k, .text),
    (.encBinary p e k, .binary)]

/-- Each encode operation is the general rule ENC on its type, and none is of type Continuation. -/
theorem exec_of_mem_encodeRows {i : Instr} {ty : FrameType} {p : List Byte} {e : Bool} {k : Key}
    (h : (i, ty) ∈ encodeRows p e k) : ty ≠ .continuation ∧ ∀ s, exec i s = encGeneral ty.opcode p e k s := by
  simp only [encodeRows, List.mem_cons, List.not_mem_nil, or_false, Prod.mk.injEq] at h
  obtain ⟨rfl, rfl⟩ | ⟨rfl, rfl⟩ | ⟨rfl, rfl⟩ | ⟨rfl, rfl⟩ | ⟨rfl, rfl⟩ := h
  all_goals exact ⟨nofun, fun _ => rfl⟩

/-- An encode operation that goes on emitted a frame: Error is for the other types (R150, R156). -/
theorem exec_encodeRow_next {i : Instr} {ty : FrameType} {p : List Byte} {e : Bool} {k : Key} {s t : State}
    (hi : (i, ty) ∈ encodeRows p e k) (h : exec i s = .next t) :
    ∃ bytes, serialize s.cfg.finPolicy false ty.opcode (encKey e k) p = some bytes ∧
      t = respond (.enc (.frame bytes)) (emitTx bytes s) := by
  obtain ⟨hty, hexec⟩ := exec_of_mem_encodeRows hi
  rw [hexec] at h
  have hp : p.length < 4294967296 := by
    by_contra hhuge
    rw [encGeneral_refused (by omega)] at h
    cases h
  obtain ⟨len, hlen⟩ := serializable_of_encodable ((encodableLength_iff p).mpr hp) (maskValue e)
  have hser := serialize_encKey hlen s.cfg.finPolicy false ty.opcode k
  rw [encGeneral_of_serialize hty hp hser] at h
  cases h
  exact ⟨_, hser, rfl⟩

/-! ## The length of a serialised frame -/

/-- Byte 0 and the length field are 2, 4 or 10 bytes (R160). -/
theorem encodeLength_length {n : Nat} {mv : Byte} {len : List Byte} (h : encodeLength n mv = some len) :
    1 + len.length = if n ≤ 125 then 2 else if n ≤ 65535 then 4 else 10 := by
  have hn : n < 4294967296 := (encodeLength_isSome_iff n mv).mp (by simp [h])
  split_ifs with hshort hwide
  · rw [encodeLength_short hshort] at h
    cases h; rfl
  · rw [encodeLength_wide16 (by omega) (by omega)] at h
    cases h; rfl
  · rw [encodeLength_wide64 (by omega) hn] at h
    cases h; rfl

theorem serialize_length {fin more : Bool} {opc : BitVec 4} {mk : Option Key} {p bytes : List Byte}
    (h : serialize fin more opc mk p = some bytes) :
    bytes.length = (if p.length ≤ 125 then 2 else if p.length ≤ 65535 then 4 else 10)
      + keyBytes mk.isSome + p.length := by
  obtain ⟨len, hlen, rfl⟩ := exists_encodeLength_of_serialize h
  rw [← encodeLength_length hlen, List.length_cons, List.length_append, serialBody_length]
  omega

/-! ## What DEC reads from a serialised frame -/

theorem keyAt_keyList (pre : List Byte) (key : Key) (rest : List Byte) :
    keyAt (pre ++ (keyList key ++ rest)) pre.length = key := by
  simp [keyAt, keyList]

/-- The payload delivered from behind a header is the payload serialised there: the key of the frame undoes its own
masking (R101, R103). -/
theorem payloadAt_serialBody (pre : List Byte) (mk : Option Key) (p : List Byte) :
    payloadAt (pre ++ serialBody mk p) pre.length mk.isSome p.length = p := by
  cases mk with
  | none => simpa [serialBody, payloadAt_unmasked] using slice_append_middle pre p []
  | some key =>
    have hbody : slice (pre ++ (keyList key ++ mask p key)) (pre.length + 4) p.length = mask p key := by
      simpa [keyList] using slice_append_middle (pre ++ keyList key) (mask p key) []
    rw [serialBody, Option.isSome_some, payloadAt_masked, hbody, keyAt_keyList]
    exact maskIsSelfInverse p key

theorem payloadAt_serialize {fin more : Bool} {opc : BitVec 4} {mk : Option Key} {p bytes : List Byte} {hdr : Nat}
    (h : serialize fin more opc mk p = some bytes) (htotal : hdr + keyBytes mk.isSome + p.length = bytes.length) :
    payloadAt bytes hdr mk.isSome p.length = p := by
  obtain ⟨len, -, rfl⟩ := exists_encodeLength_of_serialize h
  obtain rfl : hdr = (serialByte0 fin more opc :: len).length := by
    rw [← List.cons_append, List.length_append, serialBody_length] at htotal
    omega
  exact payloadAt_serialBody _ mk p

/-- A serialised frame at the cursor that fits MAXFS is the frame DEC finds there, whatever follows it (R57, R94). -/
theorem frameHere_serialize {fin more : Bool} {opc : BitVec 4} {mk : Option Key} {p bytes rest : List Byte} {s : State}
    (h : serialize fin more opc mk p = some bytes) (hrx : s.rx = bytes ++ rest) (hmax : bytes.length ≤ s.cfg.maxFs) :
    ∃ hdr, FrameHere (serialByte0 fin more opc) mk.isSome hdr p.length s ∧
      payload mk.isSome hdr p.length s = p ∧ consumed mk.isSome hdr p.length s = consume bytes.length s := by
  obtain ⟨hdr, hdec, htotal⟩ := decodeLength_serialize h s.cfg.highLen
  refine ⟨hdr, ⟨?head, ?len, by omega, by rw [hrx, List.length_append]; omega⟩, ?payload, ?consumed⟩
  case head =>
    obtain ⟨len, -, rfl⟩ := exists_encodeLength_of_serialize h
    rw [hrx]
    rfl
  case len => rw [hrx, decodeLength_append (by simp [hdec]), hdec]
  case payload => rw [payload, hrx, payloadAt_append (by omega), payloadAt_serialize h htotal]
  case consumed => rw [consumed, htotal]

/-! ## A message in one frame -/

theorem headerAllowed_idle {b0 : Byte} {t : FrameType} {s : State} (hrow : frameRow b0 = .frame t)
    (hmore : moreOf s.cfg.finPolicy b0 = false) (hp : s.pend = none) : HeaderAllowed b0 t s :=
  ⟨hrow, by simp [hmore], by simp [hp]⟩

/-- While Idle every unfragmented frame but a Continuation is a message of its own (R112 to R116). -/
theorem refReassemble_single {ty : FrameType} {p : List Byte} {s : State} (hty : ty ≠ .continuation)
    (hp : s.pend = none) (hv : ty = .text → utf8Valid s.cfg.utf8 p = true) :
    refReassemble ty p false s = .emit ty p s := by
  cases ty with
  | continuation => exact absurd rfl hty
  | close | ping | pong => rfl
  | text => exact reasmText_valid hp (hv rfl)
  | binary => exact reasmBinary_single hp p

/-- DEC on an unfragmented frame serialised at the cursor, while Idle, returns its payload and consumes exactly the
frame (R139, R159). -/
theorem exec_dec_serialize {ty : FrameType} {mk : Option Key} {p bytes rest : List Byte} {s : State}
    (hty : ty ≠ .continuation) (h : serialize false false ty.opcode mk p = some bytes) (hrx : s.rx = bytes ++ rest)
    (hfin : s.cfg.finPolicy = false) (hf : s.fault = none) (hp : s.pend = none) (hmax : bytes.length ≤ s.cfg.maxFs)
    (hctl : isControl ty = true → p.length ≤ 125) (hv : ty = .text → utf8Valid s.cfg.utf8 p = true) :
    exec .dec s = decMessage ty p (consume bytes.length s) := by
  obtain ⟨hdr, hhere, hpayload, hconsumed⟩ := frameHere_serialize h hrx hmax
  have hraw : highBit (serialByte0 false false ty.opcode) = false := byte0Of_high _ _
  have hallowed : HeaderAllowed (serialByte0 false false ty.opcode) ty s :=
    headerAllowed_idle (byte0Of_row _ ty) (by simp [moreOf, moreFlag, hfin, hraw]) hp
  rw [exec_dec_frameHere hfin hf hhere hallowed hctl, hpayload, hconsumed, hraw,
    refReassemble_single (s := consume bytes.length s) hty hp hv, afterFrame_deliver_emit]

end Sys2Proof.Machine

namespace Sys2Proof.Claims

open Sys2Proof.Machine

/-- Settles O43: each of the five is the general rule ENC on its own type. -/
theorem encodeOperations : Obligations.EncodeOperations := by
  intro p e k s hp hfin
  obtain ⟨len, hlen⟩ := serializable_of_encodable ((encodableLength_iff p).mpr hp) (maskValue e)
  have hframe := fun ty hty => encGeneral_frame (ty := ty) hty hp hfin hlen k
  exact ⟨len, hlen, hframe .text nofun, hframe .binary nofun, hframe .close nofun, hframe .ping nofun,
    hframe .pong nofun⟩

/-- Settles O45: what an encode operation emits is a serialised frame. -/
theorem encoderOutputLength : Obligations.EncoderOutputLength := by
  intro i p e k s t hi h
  obtain ⟨⟨_, ty⟩, hrow, rfl⟩ : ∃ row ∈ encodeRows p e k, row.1 = i := List.mem_map.mp hi
  obtain ⟨bytes, hser, rfl⟩ := exec_encodeRow_next hrow h
  refine ⟨bytes, rfl, rfl, ?_⟩
  rw [serialize_length hser, encKey_isSome, keyBytes]

/-- Settles O47: the frame an encode operation emitted is, in an idle decoder, a message in one frame. -/
theorem encodeThenDecode : Obligations.EncodeThenDecode := by
  intro i ty p e k s t hi h hfin
  obtain ⟨bytes, hser, rfl⟩ := exec_encodeRow_next hi h
  rw [hfin] at hser
  refine ⟨bytes, rfl, fun d hf hp hrx hdfin hcap hmax hctl hv => ?_⟩
  have hpush : exec (.rxPush bytes) d = .next (respond .pushAccepted (appendRx bytes d)) := by
    rw [exec_rxPush, pushBytes_fits (by rw [hcap, fitsCap_none])]
  have hdec := exec_dec_serialize (s := respond .pushAccepted (appendRx bytes d)) (rest := [])
    (exec_of_mem_encodeRows hi).1 hser (by simp [hrx]) hdfin hf hp hmax hctl hv
  exact ⟨_, _, hpush, hdec, by simp, by simp [hrx], hp, rfl, hf⟩

/-- Settles O44: the types 0, 6, 7 and 8 to 15 lie outside the range 1 to 5. -/
theorem unsupportedTypes : Obligations.UnsupportedTypes := by
  intro p e k s hp
  have herror := fun code hcode => encGeneral_unsupported (code := code) hcode hp e k s
  have h6to7 : ∀ x : BitVec 1, ¬ (1 ≤ (3#3 ++ x).toNat ∧ (3#3 ++ x).toNat ≤ 5) := by decide
  have h8to15 : ∀ x : BitVec 3, ¬ (1 ≤ (1#1 ++ x).toNat ∧ (1#1 ++ x).toNat ≤ 5) := by decide
  exact ⟨herror 0#4 (by decide), fun x => herror _ (h6to7 x), fun x => herror _ (h8to15 x)⟩

end Sys2Proof.Claims
end

section
/-! PROOFS. The family of 60_exceptions: the error latch. First a row under a latched fault, then the frame that ends
DEC with a clear latch, and last the same two for a row of each side. -/

namespace Sys2Proof.Machine

open Sys2Proof.Claims

/-- A row DEC executes repeats a latched fault and changes nothing else (R143). -/
theorem exec_decodeSide_latched {i : Instr} {s : State} {k : ErrKind} (hi : decodeSide i = true)
    (hf : s.fault = some k) : exec i s = .next (respond (.dec (.protocolError k)) s) := by
  obtain ⟨b0, b1, hrow⟩ | hrow := exec_decodeSide_cases i hi s
  · rw [hrow]
    simp only [decFrame, hf]
  · exact hrow.trans (exec_dec_latched hf)

/-- A row that is not DEC's keeps the latch, or is RESET and clears it (R186). -/
theorem exec_otherSide_fault {i : Instr} {s t : State} (hi : decodeSide i = false) (h : exec i s = .next t) :
    t.fault = s.fault ∨ (i = .reset ∧ t.fault = none) := by
  by_cases hreset : i = .reset
  · subst hreset
    rw [exec_reset] at h
    cases h
    exact .inr ⟨rfl, by simp⟩
  · obtain ⟨-, -, hfault, -⟩ := exec_otherSide_reassembler hi hreset h
    exact .inl hfault

/-- From a clear latch, the frame that ends DEC latches exactly the error it answers (R184). -/
theorem frameStep_done_fault_iff {b0 b1 : Byte} {s s' : State} {r : DecResult} (hf : s.fault = none)
    (h : frameStep b0 b1 s = .done r s') (k : ErrKind) : s'.fault = some k ↔ r = .protocolError k := by
  obtain ⟨rfl, rfl⟩ | ⟨k', -, rfl, rfl⟩ | ⟨k', n, -, rfl, rfl⟩ | ⟨n, w, rfl, -, rfl⟩ |
    ⟨n, ty, p, rfl, rfl | rfl, -⟩ := frameStep_done h
  all_goals simp [hf]

/-- Absorbed frames leave latch and results alone, so a row DEC executes latches what its last frame latches. -/
theorem exec_decodeSide_fault_iff {i : Instr} {s t : State} (hi : decodeSide i = true) (hf : s.fault = none)
    (h : exec i s = .next t) (k : ErrKind) : t.fault = some k ↔ t.out = s.out ++ [.dec (.protocolError k)] := by
  refine exec_decodeSide_induct (P := fun u => u.fault = none ∧ u.out = s.out)
    (Q := fun u => u.fault = some k ↔ u.out = s.out ++ [.dec (.protocolError k)])
    i hi ?fault ?incomplete ?done ?absorbed s t ⟨hf, rfl⟩ h
  case fault =>
    rintro u k' hlatched ⟨huf, -⟩
    cases huf.symm.trans hlatched
  case incomplete =>
    rintro u ⟨huf, huo⟩ - -
    simp [huf, huo]
  case done =>
    rintro b0 b1 u r u' ⟨huf, huo⟩ - hstep
    simp [frameStep_done_fault_iff huf hstep, frameStep_done_out hstep, huo]
  case absorbed =>
    rintro b0 b1 u u' hu - hstep
    obtain ⟨n, d, w, -, -, rfl, -⟩ := frameStep_absorbed hstep
    exact hu

end Sys2Proof.Machine

namespace Sys2Proof.Claims

open Sys2Proof.Machine

/-- Settles O16: a row DEC executes only repeats the latched kind, and of the others RESET alone writes the latch. -/
theorem onlyResetClearsFault : Obligations.OnlyResetClearsFault := by
  intro i s t k hf h
  cases hi : decodeSide i with
  | true =>
    rw [exec_decodeSide_latched hi hf] at h
    cases h
    exact .inl hf
  | false => exact hf ▸ exec_otherSide_fault hi h

/-- Settles O17: a row DEC executes latches the error it answers; any other leaves the latch clear and answers no DEC
result. -/
theorem latchSetExactlyOnError : Obligations.LatchSetExactlyOnError := by
  intro i s t hf h k
  cases hi : decodeSide i with
  | true => exact exec_decodeSide_fault_iff hi hf h k
  | false =>
    have hclear : t.fault = none := (exec_otherSide_fault hi h).elim (·.trans hf) fun ⟨_, hreset⟩ => hreset
    have hanswer := exec_otherSide_out_ne_dec hi h (.protocolError k)
    simp [hclear, hanswer]

end Sys2Proof.Claims
end

section
/-! PROOFS. Codes and instructions. First the row a frame's type names, then the length forms and the `type` input of
ENC, then decoding after encoding and encoding after decoding. -/

namespace Sys2Proof.Machine

open Sys2Proof.Claims

/-! ## The header of a frame -/

/-- The frame row of a type (R70). -/
def frameInstr : FrameType → Bool → Bool → BitVec 7 → Instr
  | .continuation => .frameCont
  | .close => .frameClose
  | .ping => .framePing
  | .pong => .framePong
  | .text => .frameText
  | .binary => .frameBinary

theorem decodeFrame_of_frameRow {b0 : Byte} {t : FrameType} (h : frameRow b0 = .frame t) (b1 : Byte) :
    decodeFrame b0 b1 = frameInstr t (highBit b0) (highBit b1) (low7 b1) := by
  cases t <;> simp only [decodeFrame, h, frameInstr]

theorem encode_frameInstr (t : FrameType) (f m : Bool) (l : BitVec 7) :
    encode (frameInstr t f m l) = .frame (byte0Of f t.opcode) (byte1Of m l) := by
  cases t <;> rfl

theorem decode_encode_frameInstr (t : FrameType) (f m : Bool) (l : BitVec 7) :
    decode (encode (frameInstr t f m l)) = frameInstr t f m l := by
  rw [encode_frameInstr, decode, decodeFrame_of_frameRow (byte0Of_row f t), byte0Of_high]
  simp only [byte1Of_fields]

/-- Byte 0 put together again from its row and the bits the row leaves free (R51, R59 to R61). -/
def joinByte0 (b0 : Byte) : FrameRow → Byte
  | .frame t => byte0Of (highBit b0) t.opcode
  | .rsv1 => BitVec.ofBool (highBit b0) ++ (1#1 ++ b0.extractLsb' 0 6)
  | .rsv2 => BitVec.ofBool (highBit b0) ++ (1#2 ++ b0.extractLsb' 0 5)
  | .rsv3 => BitVec.ofBool (highBit b0) ++ (1#3 ++ b0.extractLsb' 0 4)
  | .opc6to7 => BitVec.ofBool (highBit b0) ++ (3#6 ++ b0.extractLsb' 0 1)
  | .opc8to15 => BitVec.ofBool (highBit b0) ++ (1#4 ++ b0.extractLsb' 0 3)

theorem joinByte0_frameRow (b0 : Byte) : joinByte0 b0 (frameRow b0) = b0 := by
  revert b0; decide

theorem encode_decodeFrame (b0 b1 : Byte) : encode (decodeFrame b0 b1) = .frame b0 b1 := by
  have hrow : encode (decodeFrame b0 b1) =
      .frame (joinByte0 b0 (frameRow b0)) (byte1Of (highBit b1) (low7 b1)) := by
    cases h : frameRow b0 with
    | frame t => rw [decodeFrame_of_frameRow h, encode_frameInstr]; rfl
    | rsv1 | rsv2 | rsv3 | opc6to7 | opc8to15 => simp only [decodeFrame, h]; rfl
  rw [hrow, joinByte0_frameRow, byte1Of_join]

/-! ## The length byte -/

/-- Byte 1 selects the 8-byte form, the 16-bit form or the short form (R52). -/
theorem decodeLen_cases (b1 : Byte) :
    (low7 b1 = 127#7 ∧ decodeLen b1 = .len64 (highBit b1)) ∨
    (low7 b1 = 126#7 ∧ decodeLen b1 = .len16 (highBit b1)) ∨
    ((low7 b1).toNat ≤ 125 ∧ decodeLen b1 = .len7 (highBit b1) (low7 b1)) := by
  have hlt := (low7 b1).isLt
  unfold decodeLen
  split_ifs with h127 h126
  · exact .inl ⟨BitVec.eq_of_toNat_eq h127, rfl⟩
  · exact .inr (.inl ⟨BitVec.eq_of_toNat_eq h126, rfl⟩)
  · exact .inr (.inr ⟨by omega, rfl⟩)

theorem encode_decodeLen (b1 : Byte) : encode (decodeLen b1) = .len b1 := by
  obtain ⟨hcode, h⟩ | ⟨hcode, h⟩ | ⟨-, h⟩ := decodeLen_cases b1
  · rw [h, encode, ← hcode, byte1Of_join]
  · rw [h, encode, ← hcode, byte1Of_join]
  · rw [h, encode, byte1Of_join]

theorem decodeLen_byte1Of_short {l : BitVec 7} (h : shortLen7 l = true) (m : Bool) :
    decodeLen (byte1Of m l) = .len7 m l := by
  have hle : l.toNat ≤ 125 := of_decide_eq_true h
  simp only [decodeLen, byte1Of_fields]
  rw [if_neg (by omega), if_neg (by omega)]

/-! ## The type input of ENC -/

theorem decodeEnc_illegal6to7 (x : BitVec 1) (p : List Byte) (e : Bool) (k : Key) :
    decodeEnc (3#3 ++ x) p e k = .encIllegal6to7 x p e k := by
  obtain rfl | rfl : x = 0#1 ∨ x = 1#1 := by revert x; decide
  · rfl
  · rfl

theorem decodeEnc_of_le {ty : BitVec 4} (h : 8 ≤ ty.toNat) (p : List Byte) (e : Bool) (k : Key) :
    decodeEnc ty p e k = .encIllegal8to15 (ty.extractLsb' 0 3) p e k := by
  unfold decodeEnc
  split
  case h_9 => rfl
  all_goals omega

theorem type8to15_fields (x : BitVec 3) : 8 ≤ (1#1 ++ x).toNat ∧ (1#1 ++ x).extractLsb' 0 3 = x := by
  revert x; decide

theorem encode_decodeEnc (ty : BitVec 4) (p : List Byte) (e : Bool) (k : Key) :
    encode (decodeEnc ty p e k) = .port (.enc ty p e k) := by
  by_cases hhigh : 8 ≤ ty.toNat
  · have hjoin : 1#1 ++ ty.extractLsb' 0 3 = ty := by revert ty; decide
    rw [decodeEnc_of_le hhigh, encode, hjoin]
  · obtain ⟨⟨n, hn⟩⟩ := ty
    have hlow : n < 8 := not_le.mp hhigh
    interval_cases n <;> rfl

end Sys2Proof.Machine

namespace Sys2Proof.Claims

open Sys2Proof.Machine

/-- Settles O1, row by row: the six frames are one argument over the frame type, and byte 0 of an illegal encoding names
its row and holds its free bits. -/
theorem decodeEncodeRoundTrip : Obligations.DecodeEncodeRoundTrip := by
  intro i hwf
  cases i with
  | frameCont f m l => exact decode_encode_frameInstr .continuation f m l
  | frameClose f m l => exact decode_encode_frameInstr .close f m l
  | framePing f m l => exact decode_encode_frameInstr .ping f m l
  | framePong f m l => exact decode_encode_frameInstr .pong f m l
  | frameText f m l => exact decode_encode_frameInstr .text f m l
  | frameBinary f m l => exact decode_encode_frameInstr .binary f m l
  | illegalRsv1 f x m l => simp only [encode, decode, decodeFrame, rsv1_byte, byte1Of_fields]
  | illegalRsv2 f x m l => simp only [encode, decode, decodeFrame, rsv2_byte, byte1Of_fields]
  | illegalRsv3 f x m l => simp only [encode, decode, decodeFrame, rsv3_byte, byte1Of_fields]
  | illegalOpc6to7 f x m l => simp only [encode, decode, decodeFrame, opc6to7_byte, byte1Of_fields]
  | illegalOpc8to15 f x m l => simp only [encode, decode, decodeFrame, opc8to15_byte, byte1Of_fields]
  | len7 m l => exact decodeLen_byte1Of_short hwf m
  | len16 m | len64 m => cases m <;> rfl
  | encIllegal6to7 x p e k => exact decodeEnc_illegal6to7 x p e k
  | encIllegal8to15 x p e k =>
    obtain ⟨hhigh, hlow⟩ := type8to15_fields x
    exact (decodeEnc_of_le hhigh p e k).trans (by rw [hlow])
  | encClose | encPing | encPong | encText | encBinary | encIllegal0 | rxPush | dec | reset | frag => rfl

/-- Settles O2: each kind of code is put together again from the fields its decoder reads. -/
theorem encodeDecodeRoundTrip : Obligations.EncodeDecodeRoundTrip := by
  intro c
  cases c with
  | frame b0 b1 => exact encode_decodeFrame b0 b1
  | len b1 => exact encode_decodeLen b1
  | port op =>
    cases op with
    | enc ty p e k => exact encode_decodeEnc ty p e k
    | rxPush | dec | reset => rfl
  | frag t parts => rfl

/-- Settles O3, by evaluation of the decoder on the written words. -/
theorem writtenWordsDecode : Obligations.WrittenWordsDecode :=
  ⟨rfl, rfl, rfl, rfl, rfl, rfl, fun _ _ _ => ⟨rfl, rfl⟩⟩

end Sys2Proof.Claims
end

section
/-! PROOFS. The invariant of the machine. First what each operation on the state keeps, then the frame that ends DEC and
the frame that is absorbed, then the rows of both sides. -/

namespace Sys2Proof.Machine

open Sys2Proof.Claims

/-! ## One step -/

/-- A step leaves the state as it is while no request is pending, and else runs one instruction (R42, R191). -/
theorem step_cases (s : State) : step s = .next s ∨ ∃ i, step s = exec i s := by
  unfold step
  split
  · exact .inl rfl
  · exact .inr ⟨_, rfl⟩

/-! ## What the operations on the state keep -/

theorem buffersWf_iff (s : State) : s.buffersWf = true ↔
    fitsCap s.cfg.rxCap s.rx.length = true ∧ ∀ a, s.acc = some a → fitsCap s.cfg.accCap a.length = true := by
  cases ha : s.acc <;> simp [State.buffersWf, ha]

theorem latchWf_iff (s : State) : s.latchWf = true ↔ ∀ k, s.fault = some k → ErrKind.decodeSide k = true := by
  cases hf : s.fault <;> simp [State.latchWf, hf]

section
variable {s : State} (hs : s.Inv)
include hs

theorem inv_respond {r : Response} (hr : Response.lawful s.cfg.utf8 r = true) : (respond r s).Inv := by
  obtain ⟨hcoh, hbuf, hlatch, hout⟩ := hs
  exact ⟨hcoh, hbuf, hlatch, by simpa [hr] using hout⟩

theorem inv_emitTx (bytes : List Byte) : (emitTx bytes s).Inv := by
  obtain ⟨hcoh, hbuf, hlatch, hout⟩ := hs
  exact ⟨hcoh, hbuf, hlatch, hout⟩

theorem inv_consume (n : Nat) : (consume n s).Inv := by
  obtain ⟨hcoh, hbuf, hlatch, hout⟩ := hs
  obtain ⟨hrx, hacc⟩ := (buffersWf_iff s).mp hbuf
  exact ⟨hcoh, (buffersWf_iff _).mpr ⟨fitsCap_mono (by simp) hrx, hacc⟩, hlatch, hout⟩

theorem inv_appendRx {bytes : List Byte} (hfit : fitsCap s.cfg.rxCap (s.rx.length + bytes.length) = true) :
    (appendRx bytes s).Inv := by
  obtain ⟨hcoh, hbuf, hlatch, hout⟩ := hs
  obtain ⟨-, hacc⟩ := (buffersWf_iff s).mp hbuf
  exact ⟨hcoh, (buffersWf_iff _).mpr ⟨by simpa using hfit, hacc⟩, hlatch, hout⟩

/-- Opening or extending a message within ACC_CAP (R118). -/
theorem inv_setFrag_some {whole : List Byte} (hfit : fitsCap s.cfg.accCap whole.length = true) (d : DataType) :
    (setFrag (some d) (some whole) s).Inv := by
  obtain ⟨-, hbuf, hlatch, hout⟩ := hs
  obtain ⟨hrx, -⟩ := (buffersWf_iff s).mp hbuf
  exact ⟨rfl, (buffersWf_iff _).mpr ⟨hrx, fun a ha => Option.some.inj ha ▸ hfit⟩, hlatch, hout⟩

theorem inv_setFrag_none : (setFrag none none s).Inv := by
  obtain ⟨-, hbuf, hlatch, hout⟩ := hs
  obtain ⟨hrx, -⟩ := (buffersWf_iff s).mp hbuf
  exact ⟨rfl, (buffersWf_iff _).mpr ⟨hrx, nofun⟩, hlatch, hout⟩

theorem inv_latch {k : ErrKind} (hk : ErrKind.decodeSide k = true) : ({ s with fault := some k } : State).Inv := by
  obtain ⟨hcoh, hbuf, -, hout⟩ := hs
  exact ⟨hcoh, hbuf, hk, hout⟩

theorem inv_pushBytes (bytes : List Byte) : (pushBytes bytes s).Inv := by
  obtain ⟨hfit, h⟩ | ⟨-, h⟩ := pushBytes_cases bytes s <;> rw [h]
  · exact inv_respond (inv_appendRx hs hfit) rfl
  · exact inv_respond hs rfl

/-- RESET leaves empty buffers, which fit every capacity, and a clear latch (R20). -/
theorem inv_reset : (retire (clearState s)).Inv := by
  obtain ⟨-, -, -, hout⟩ := hs
  have hempty : fitsCap s.cfg.rxCap 0 = true := by cases s.cfg.rxCap <;> simp
  exact ⟨rfl, (buffersWf_iff _).mpr ⟨hempty, nofun⟩, rfl, hout⟩

/-! ## One frame -/

/-- The frame that ends DEC, with the result DEC returns: Incomplete, the error of the latch, or a checked message. -/
theorem inv_frameStep_done {b0 b1 : Byte} {s' : State} {r : DecResult} (h : frameStep b0 b1 s = .done r s') :
    (respond (.dec r) s').Inv := by
  obtain ⟨rfl, rfl⟩ | ⟨k, hk, rfl, rfl⟩ | ⟨k, n, hk, rfl, rfl⟩ | ⟨n, whole, rfl, hfit, rfl⟩ |
    ⟨n, t, p, rfl, hs', ht, htext, hctl⟩ := frameStep_done h
  · exact inv_respond hs rfl
  · exact inv_respond (inv_latch hs hk) hk
  · exact inv_respond (inv_latch (inv_consume hs n) hk) hk
  · exact inv_respond (inv_latch (inv_setFrag_some (inv_consume hs n) hfit .text) rfl) rfl
  · have hmsg : messageLawful s.cfg.utf8 t.opcode p = true := (messageLawful_iff _ _ _).mpr ⟨t, rfl, ht, hctl, htext⟩
    obtain rfl | rfl := hs'
    · exact inv_respond (inv_consume hs n) hmsg
    · exact inv_respond (inv_setFrag_none (inv_consume hs n)) hmsg

theorem inv_frameStep_absorbed {b0 b1 : Byte} {s' : State} (h : frameStep b0 b1 s = .absorbed s') : s'.Inv := by
  obtain ⟨n, d, whole, -, -, rfl, hfit⟩ := frameStep_absorbed h
  exact inv_setFrag_some (inv_consume hs n) hfit d

/-! ## One instruction -/

theorem inv_exec_decodeSide {i : Instr} {t : State} (hi : decodeSide i = true) (h : exec i s = .next t) : t.Inv :=
  exec_decodeSide_induct (P := State.Inv) (Q := State.Inv) i hi
    (fun u k hk hu => inv_respond hu ((latchWf_iff u).mp hu.latchWf k hk))
    (fun _ hu _ _ => inv_respond hu rfl)
    (fun _ _ _ _ _ hu _ hstep => inv_frameStep_done hu hstep)
    (fun _ _ _ _ hu _ hstep => inv_frameStep_absorbed hu hstep) s t hs h

theorem inv_exec_otherSide {i : Instr} {t : State} (hi : decodeSide i = false) (h : exec i s = .next t) : t.Inv := by
  obtain ⟨r, rfl, hr, -⟩ | ⟨rfl, -⟩ | ⟨b, rfl, -⟩ | ⟨b, rfl, -⟩ | ⟨rfl, -⟩ := exec_otherSide_cases i hi s t h
  · exact inv_respond hs hr
  · exact inv_respond hs rfl
  · exact inv_respond (inv_emitTx hs b) rfl
  · exact inv_pushBytes hs b
  · exact inv_reset hs

theorem inv_exec {i : Instr} {t : State} (h : exec i s = .next t) : t.Inv := by
  cases hi : decodeSide i with
  | true => exact inv_exec_decodeSide hs hi h
  | false => exact inv_exec_otherSide hs hi h

end

end Sys2Proof.Machine

namespace Sys2Proof.Claims

open Sys2Proof.Machine

/-- Settles O11: an idle step changes nothing, and every instruction keeps each part of the invariant. -/
theorem stepKeepsInvariant : Obligations.StepKeepsInvariant := by
  intro s t hs h
  obtain hidle | ⟨i, hrun⟩ := step_cases s
  · rw [hidle] at h
    cases h
    exact hs
  · exact inv_exec hs (hrun ▸ h)

/-- Settles O10: every part of the invariant is about something that is empty or absent after reset. -/
theorem resetMeetsInvariant : Obligations.ResetMeetsInvariant :=
  ⟨rfl, rfl, rfl, rfl⟩

end Sys2Proof.Claims
end

section
/-! PROOFS. The rows as instructions of their own. First the step by its request, then a row DEC executes (the frame at
the cursor, its end, what it leaves unchanged), then the rows that never fault, the six frames and the LEN rows. -/

namespace Sys2Proof.Machine

open Sys2Proof.Claims

/-! ## The step by its request -/

theorem step_of_request {s : State} {r : Request} {q : List Request} (h : s.ops = r :: q) :
    step s = exec (decode (requestCode r s)) s := by
  simp only [step, fetchCode, h]

theorem fetchDec_frame {s : State} {b0 b1 : Byte} {rest : List Byte} (hf : s.fault = none)
    (hrx : s.rx = b0 :: b1 :: rest) : fetchDec s = .frame b0 b1 := by
  simp only [fetchDec, hf, hrx]

/-- Under a latched fault, or with fewer than two bytes, a DEC request fetches no frame (R130, R143). -/
theorem fetchDec_dec {s : State} (h : s.fault ≠ none ∨ s.rx.length < 2) : fetchDec s = .port .dec := by
  unfold fetchDec
  split
  next hf hrx => simp [hf, hrx] at h
  · rfl

/-! ## The frame at the cursor -/

/-- The frame row of a type is DEC running a frame of that type through the parser (log 9). -/
theorem exec_frameInstr (t : FrameType) (f m : Bool) (l : BitVec 7) (s : State) :
    exec (frameInstr t f m l) s = decFrame (runFrame t f m l (refReassemble t)) s := by
  cases t <;> rfl

/-- The row decoded from two header bytes is DEC running the frame they begin. -/
theorem exec_decodeFrame (b0 b1 : Byte) (s : State) : exec (decodeFrame b0 b1) s = decFrame (frameStep b0 b1) s := by
  cases hrow : frameRow b0 with
  | frame t =>
    have hframe : frameStep b0 b1 = runFrame t (highBit b0) (highBit b1) (low7 b1) (refReassemble t) :=
      funext (frameStep_of_frameRow hrow b1)
    rw [decodeFrame_of_frameRow hrow, exec_frameInstr, hframe]
  | rsv1 | rsv2 | rsv3 | opc6to7 | opc8to15 =>
    simp only [decodeFrame, decFrame, frameStep, hrow]
    rfl

theorem decFrame_latched {s : State} {k : ErrKind} (hf : s.fault = some k) (frame : State → FrameEnd) :
    decFrame frame s = .next (respond (.dec (.protocolError k)) s) := by
  simp only [decFrame, hf]

/-! ## A row DEC executes answers -/

/-- In a state that meets R13 no frame stops the model, whether or not it is the one in the buffer (log 8). -/
theorem frameStep_ne_stop {s : State} (hs : s.coherent = true) (b0 b1 : Byte) (f : Fault) :
    frameStep b0 b1 s ≠ .stop f := by
  intro hstop
  obtain h | ⟨k, -, h⟩ | ⟨t, hd, -, h⟩ := frameStep_cases b0 b1 s <;> rw [h] at hstop
  · cases hstop
  · cases hstop
  · obtain ⟨_, _, hr⟩ | ⟨_, _, hr⟩ | ⟨_, _, hr, -⟩ | ⟨_, -, hr⟩ | ⟨_, hr, -⟩ | ⟨hincoherent, -⟩ :=
      refReassemble_cases t (payloadAt s.rx hd.h hd.masked hd.payloadLen) hd.more (consume hd.total s)
    case inr.inr.inr.inr.inr => exact Bool.false_ne_true (hincoherent.symm.trans hs)
    all_goals rw [hr] at hstop; cases hstop

theorem decFrame_completes {s : State} (hs : s.coherent = true) (b0 b1 : Byte) :
    ∃ t, decFrame (frameStep b0 b1) s = .next t := by
  cases hf : s.fault with
  | some k => exact ⟨_, decFrame_latched hf _⟩
  | none =>
    rw [decFrame_of_fault_none hf]
    cases hstep : frameStep b0 b1 s with
    | done r s' => exact ⟨_, rfl⟩
    | stop f => exact absurd hstep (frameStep_ne_stop hs b0 b1 f)
    | absorbed s' =>
      have hfault : s'.fault = none := by
        obtain ⟨n, d, whole, -, -, rfl, -⟩ := frameStep_absorbed hstep
        exact hf
      obtain ⟨t, ht⟩ := exec_dec_completes hfault (frameStep_absorbed_coherent hstep)
      exact ⟨t, (execDec_of_fault_none hfault).symm.trans ht⟩

theorem exec_decodeSide_completes {i : Instr} {s : State} (hi : decodeSide i = true) (hs : s.coherent = true) :
    ∃ t, exec i s = .next t := by
  obtain ⟨b0, b1, h⟩ | h := exec_decodeSide_cases i hi s
  · exact h ▸ decFrame_completes hs b0 b1
  · cases hf : s.fault with
    | some k => exact ⟨_, h.trans (exec_dec_latched hf)⟩
    | none => exact h ▸ exec_dec_completes hf hs

/-! ## What a row DEC executes leaves unchanged -/

/-- The configuration and everything on the ports are the same in `t` as in `s`. -/
def SamePorts (s t : State) : Prop :=
  t.cfg = s.cfg ∧ t.tx = s.tx ∧ t.ops = s.ops ∧ t.out = s.out

/-- One frame reads and writes the block alone: the response is DEC's. -/
theorem frameStep_done_samePorts {b0 b1 : Byte} {s s' : State} {r : DecResult} (h : frameStep b0 b1 s = .done r s') :
    SamePorts s s' := by
  obtain ⟨-, rfl⟩ | ⟨k, -, -, rfl⟩ | ⟨k, n, -, -, rfl⟩ | ⟨n, w, -, -, rfl⟩ | ⟨n, ty, p, -, rfl | rfl, -⟩ :=
    frameStep_done h
  all_goals exact ⟨rfl, rfl, rfl, rfl⟩

theorem frameStep_absorbed_samePorts {b0 b1 : Byte} {s s' : State} (h : frameStep b0 b1 s = .absorbed s') :
    SamePorts s s' := by
  obtain ⟨n, d, w, -, -, rfl, -⟩ := frameStep_absorbed h
  exact ⟨rfl, rfl, rfl, rfl⟩

theorem SamePorts.trans {s t u : State} (hst : SamePorts s t) (htu : SamePorts t u) : SamePorts s u := by
  obtain ⟨hcfg, htx, hops, hout⟩ := htu
  obtain ⟨hcfg', htx', hops', hout'⟩ := hst
  exact ⟨hcfg.trans hcfg', htx.trans htx', hops.trans hops', hout.trans hout'⟩

/-- From `s` to `t` one request was retired with one DEC result, and the configuration and the transmit stream were
left alone. -/
def OneDecResult (s t : State) : Prop :=
  t.cfg = s.cfg ∧ t.tx = s.tx ∧ t.ops = s.ops.tail ∧ ∃ r, t.out = s.out ++ [.dec r]

theorem SamePorts.respond {s u : State} (h : SamePorts s u) (r : DecResult) : OneDecResult s (respond (.dec r) u) := by
  obtain ⟨hcfg, htx, hops, hout⟩ := h
  exact ⟨hcfg, htx, congrArg List.tail hops, r, by rw [respond_out, hout]⟩

theorem exec_decodeSide_oneDecResult {i : Instr} {s t : State} (hi : decodeSide i = true) (h : exec i s = .next t) :
    OneDecResult s t :=
  exec_decodeSide_induct (P := SamePorts s) (Q := OneDecResult s) i hi
    (fun _ _ _ hu => hu.respond _) (fun _ hu _ _ => hu.respond _)
    (fun _ _ _ _ _ hu _ hstep => (hu.trans (frameStep_done_samePorts hstep)).respond _)
    (fun _ _ _ _ hu _ hstep => hu.trans (frameStep_absorbed_samePorts hstep)) s t ⟨rfl, rfl, rfl, rfl⟩ h

/-! ## The rows that are not DEC's -/

theorem encGeneral_ne_fault (ty : BitVec 4) (p : List Byte) (e : Bool) (k : Key) (s : State) (f : Fault) :
    encGeneral ty p e k s ≠ .fault f := by
  unfold encGeneral
  split
  · split
    · nofun
    · split <;> nofun
  · nofun

/-- Only a Continuation frame can stop the model, so a row that runs no frame never does. -/
theorem exec_otherSide_ne_fault {i : Instr} (hi : decodeSide i = false) (s : State) (f : Fault) :
    exec i s ≠ .fault f := by
  by_cases henc : encodeSide i = true
  · obtain ⟨ty, p, e, k, h⟩ := exec_encodeSide henc
    rw [h]
    exact encGeneral_ne_fault ty p e k s f
  · cases i with
    | len7 | len16 | len64 | rxPush | reset => nofun
    | frag t parts =>
      simp only [exec, execFrag]
      split <;> nofun
    | encClose | encPing | encPong | encText | encBinary | encIllegal0 | encIllegal6to7 | encIllegal8to15 =>
      exact absurd rfl henc
    | _ => cases hi

theorem exec_otherSide_cfg {i : Instr} {s t : State} (hi : decodeSide i = false) (h : exec i s = .next t) :
    t.cfg = s.cfg := by
  obtain ⟨r, rfl, -⟩ | ⟨rfl, -⟩ | ⟨b, rfl, -⟩ | ⟨b, rfl, -⟩ | ⟨rfl, -⟩ := exec_otherSide_cases i hi s t h
  all_goals simp

/-! ## The six frames -/

/-- A buffered frame row that steps 5, 6 and 7 let pass is consumed, and the reassembler's answer is DEC's next move. -/
theorem exec_frameInstr_buffered {t : FrameType} {m : Bool} {l : BitVec 7} {h L : Nat} {s : State}
    (hfin : s.cfg.finPolicy = false) (hf : s.fault = none) (hb : Buffered m l h L s)
    (hdata : isData t = true → s.pend = none) (hctl : isControl t = true → L ≤ 125) :
    exec (frameInstr t false m l) s =
      afterFrame (deliver (refReassemble t (payload m h L s) false (consumed m h L s))) := by
  obtain ⟨hlen, hmax, hhere⟩ := hb
  have hmore : moreFlag s.cfg.finPolicy false = false := by simp [moreFlag, hfin]
  have hstep6 : ¬ (isData t = true ∧ s.pend.isSome = true) := fun ⟨hd, hp⟩ => by simp [hdata hd] at hp
  have hcheck : checkHeader t false m l s = .hdr ⟨h, m, L, t, false, h + keyBytes m + L⟩ := by
    rw [checkHeader, hmore, if_neg (by simp), if_neg hstep6]
    simp only [hlen]
    exact checkLength_here false hctl hmax hhere
  rw [exec_frameInstr, decFrame_of_fault_none hf, runFrame]
  simp only [hcheck]
  rfl

theorem exec_frameInstr_control {t : FrameType} {m : Bool} {l : BitVec 7} {h L : Nat} {s : State}
    (hfin : s.cfg.finPolicy = false) (hf : s.fault = none) (hb : Buffered m l h L s) (hctl : isControl t = true)
    (hL : L ≤ 125) : exec (frameInstr t false m l) s = decMessage t (payload m h L s) (consumed m h L s) := by
  have hdata : isData t = true → s.pend = none := fun hd => by simp [isData_of_isControl hctl] at hd
  rw [exec_frameInstr_buffered hfin hf hb hdata (fun _ => hL), refReassemble_control hctl, reasmControl_single,
    afterFrame_deliver_emit]

theorem exec_frameInstr_idle {t : FrameType} {m : Bool} {l : BitVec 7} {h L : Nat} {s : State}
    (hfin : s.cfg.finPolicy = false) (hf : s.fault = none) (hb : Buffered m l h L s) (hdata : isData t = true)
    (hp : s.pend = none) (hv : t = .text → utf8Valid s.cfg.utf8 (payload m h L s) = true) :
    exec (frameInstr t false m l) s = decMessage t (payload m h L s) (consumed m h L s) := by
  have hctl : isControl t = true → L ≤ 125 := fun hc => by simp [isData_of_isControl hc] at hdata
  have hty : t ≠ .continuation := by rintro rfl; cases hdata
  rw [exec_frameInstr_buffered hfin hf hb (fun _ => hp) hctl,
    refReassemble_single (s := consumed m h L s) hty hp hv, afterFrame_deliver_emit]

/-- The terminating Continuation of a message that fits and, for Text, is valid as a whole (R111). -/
theorem refReassemble_last {t : DataType} {a p : List Byte} {s : State} (hp : s.pend = some t) (ha : s.acc = some a)
    (hfit : fitsCap s.cfg.accCap (a ++ p).length = true)
    (hv : t = .binary ∨ utf8Valid s.cfg.utf8 (a ++ p) = true) :
    refReassemble .continuation p false s = .emit (dataFrameType t) (a ++ p) (setFrag none none s) := by
  rw [refReassemble, reasmCont_accumulating hp ha, appendFragment_last hfit, finishMessage_valid hv]

/-! ## The LEN rows -/

theorem exec_len7 (m : Bool) (l : BitVec 7) (s : State) :
    exec (.len7 m l) s = .next (respond (.length (.len 2 m l.toNat)) s) := rfl

theorem exec_len16 (m : Bool) (s : State) :
    exec (.len16 m) s = .next (respond (.length (lenWide16 m s.rx)) s) := rfl

theorem exec_len64 (m : Bool) (s : State) :
    exec (.len64 m) s = .next (respond (.length (lenWide64 s.cfg.highLen m s.rx)) s) := rfl

/-- The row byte 1 of the buffer selects answers what `DecodeLength` answers. -/
theorem exec_decodeLen {s : State} {b0 b1 : Byte} {rest : List Byte} (hrx : s.rx = b0 :: b1 :: rest) :
    exec (decodeLen b1) s = .next (respond (.length (decodeLength s.cfg.highLen s.rx)) s) := by
  rw [hrx, decodeLength_cons, ← hrx, maskedOf, len7Of]
  obtain ⟨hcode, h⟩ | ⟨hcode, h⟩ | ⟨hcode, h⟩ := decodeLen_cases b1
  · rw [h, exec_len64, hcode, decodeLengthAs_127]
  · rw [h, exec_len16, hcode, decodeLengthAs_126]
  · rw [h, exec_len7, decodeLengthAs_short hcode]

end Sys2Proof.Machine

namespace Sys2Proof.Claims

open Sys2Proof.Machine

/-- Settles O5: under a latched fault both repeat it, and else both run the frame the two bytes begin. -/
theorem decRunsFrameAtCursor : Obligations.DecRunsFrameAtCursor := by
  intro s b0 b1 rest hrx
  rw [exec_decodeFrame]
  cases hf : s.fault with
  | some k => rw [exec_dec_latched hf, decFrame_latched hf]
  | none => rw [exec_dec_cons hf hrx, decFrame_of_fault_none hf]

/-- Settles O51, by the induction over DEC's loop: frames leave the ports alone, and DEC answers once at its end. -/
theorem decodeSideFrame : Obligations.DecodeSideFrame := by
  intro i s t hi h
  obtain ⟨hcfg, htx, hops, hout⟩ := exec_decodeSide_oneDecResult hi h
  exact ⟨hcfg, htx, hops, hout, exec_decodeSide_rx hi h⟩

/-- Settles O7: the row answers, and what it adds is one DEC result. -/
theorem decodeSideCompletes : Obligations.DecodeSideCompletes := by
  intro i s hi hs
  obtain ⟨t, h⟩ := exec_decodeSide_completes hi hs
  obtain ⟨-, -, -, r, hout⟩ := exec_decodeSide_oneDecResult hi h
  exact ⟨t, r, h, hout⟩

/-- Settles O13: a row DEC executes answers, and no other row can fault. -/
theorem coherentStatesNeverFault : Obligations.CoherentStatesNeverFault := by
  intro i s f hs
  cases hi : decodeSide i with
  | true =>
    obtain ⟨t, h⟩ := exec_decodeSide_completes hi hs
    rw [h]
    nofun
  | false => exact exec_otherSide_ne_fault hi s f

/-- Settles O14. -/
theorem configurationNeverWritten : Obligations.ConfigurationNeverWritten := by
  intro i s t h
  cases hi : decodeSide i with
  | true =>
    obtain ⟨hcfg, -⟩ := exec_decodeSide_oneDecResult hi h
    exact hcfg
  | false => exact exec_otherSide_cfg hi h

/-- Settles O32, by the reassembler's answer to each row's frame. -/
theorem frameRowsComplete : Obligations.FrameRowsComplete := by
  intro m l h L s hfin hf hb
  refine ⟨fun hL => ⟨?close, ?ping, ?pong⟩, fun hp hv => ?text, fun hp => ?binary, fun t a hp ha hfit hv => ?cont⟩
  case close => exact exec_frameInstr_control (t := .close) hfin hf hb rfl hL
  case ping => exact exec_frameInstr_control (t := .ping) hfin hf hb rfl hL
  case pong => exact exec_frameInstr_control (t := .pong) hfin hf hb rfl hL
  case text => exact exec_frameInstr_idle (t := .text) hfin hf hb rfl hp fun _ => hv
  case binary => exact exec_frameInstr_idle (t := .binary) hfin hf hb rfl hp nofun
  case cont =>
    have hframe := exec_frameInstr_buffered (t := .continuation) hfin hf hb nofun nofun
    rwa [refReassemble_last (s := consumed m h L s) hp ha hfit hv, afterFrame_deliver_emit] at hframe

/-- Settles O34: each row evaluates its form on the buffer. -/
theorem lengthRowsComplete : Obligations.LengthRowsComplete := by
  refine ⟨fun m l s _ => exec_len7 m l s, ?wide16, ?wide64, fun m s hshort => ?short16, fun m s hshort => ?short64,
    fun s b0 b1 rest hrx => exec_decodeLen hrx⟩
  case wide16 =>
    intro m s a b x y rest hrx
    have hform := lenWide16_field (field := [x, y]) rfl m a b rest
    rw [exec_len16, hrx, ← beNat_pair, ← hform]
    rfl
  case wide64 =>
    intro m s a b h0 h1 h2 h3 l0 l1 l2 l3 rest hrx hpolicy
    have hform := lenWide64_field (high := [h0, h1, h2, h3]) (low := [l0, l1, l2, l3]) rfl rfl .truncate m a b rest
    rw [if_neg nofun] at hform
    rw [exec_len64, hrx, hpolicy, ← beNat_quad, ← hform]
    rfl
  case short16 => rw [exec_len16, lenWide16_short hshort]
  case short64 => rw [exec_len64, lenWide64_short hshort]

/-- Settles O4: the six clauses are the kinds of request, with DEC's split by what is at the cursor. -/
theorem stepRunsDecodedInstruction : Obligations.StepRunsDecodedInstruction := by
  refine ⟨?frame, ?dec, ?port, fun s b1 q hops => step_of_request hops, fun s t parts q hops => step_of_request hops,
    ?idle⟩
  case frame =>
    intro s b0 b1 rest q hops hf hrx
    rw [step_of_request hops, requestCode, fetchDec_frame hf hrx, decode]
  case dec =>
    intro s q hops hstuck
    rw [step_of_request hops, requestCode, fetchDec_dec hstuck]
    rfl
  case port =>
    intro s op q hops hop
    rw [step_of_request hops]
    cases op with
    | dec => exact absurd rfl hop
    | enc | rxPush | reset => rfl
  case idle =>
    intro s hops
    simp only [step, fetchCode, hops]

/-- Settles O9. -/
theorem resetLeavesThePorts : Obligations.ResetLeavesThePorts := by
  intro s t h
  rw [exec_reset] at h
  cases h
  exact ⟨rfl, rfl, rfl, rfl⟩

/-- Settles O37: each of the three is the general rule ENC, which looks at the length first. -/
theorem hugeUnsupportedRefused : Obligations.HugeUnsupportedRefused := by
  intro p hp e k s
  have hrefused := fun ty => encGeneral_refused hp ty e k s
  exact ⟨hrefused 0#4, fun x => hrefused (3#3 ++ x), fun x => hrefused (1#1 ++ x)⟩

end Sys2Proof.Claims
end

section
/-! PROOFS. The fragmentation pattern. First one frame of FRAG at the cursor, then the fragment that opens, extends or
ends a message, then the frames after the first by induction on the middle parts. -/

namespace Sys2Proof.Machine

open Sys2Proof.Claims

/-! ## One frame of FRAG at the cursor -/

/-- Byte 0, the longest length field and the key are 14 bytes (R57, R160). -/
theorem fragFrame_length_le {p : FragPart} (h : encodableLength p.payload = true) (more : Bool) (opc : BitVec 4) :
    (fragFrame more opc p).length ≤ p.payload.length + 14 := by
  have hkey : keyBytes p.mask.isSome ≤ 4 := by cases p.mask <;> simp [keyBytes]
  rw [serialize_length (serialize_eq_fragFrame h more opc)]
  split_ifs <;> omega

/-- What DEC needs to take a fragment: no fault, FIN_POLICY false and no bound on the accumulation buffer. -/
structure TakesFragments (s : State) : Prop where
  fin   : s.cfg.finPolicy = false
  cap   : s.cfg.accCap = none
  fault : s.fault = none

/-- The part can be serialised and its frame is within MAXFS, whatever the length form and the mask. -/
def PartFits (s : State) (p : FragPart) : Prop :=
  encodableLength p.payload = true ∧ p.payload.length + 14 ≤ s.cfg.maxFs

section
variable {s : State} {p : FragPart} {rest : List Byte} (hs : TakesFragments s) (hp : PartFits s p)
include hs hp

/-- A fragment of type `t` at the cursor that step 6 lets pass is consumed and handed to the reassembler unmasked. -/
theorem exec_dec_fragFrame {t : FrameType} {more : Bool} (hrx : s.rx = fragFrame more t.opcode p ++ rest)
    (hctl : isControl t = false) (hdata : isData t = true → s.pend = none) :
    exec .dec s = afterFrame (deliver
      (refReassemble t p.payload more (consume (fragFrame more t.opcode p).length s))) := by
  obtain ⟨hfin, -, hf⟩ := hs
  obtain ⟨henc, hmax⟩ := hp
  have hbyte0 : serialByte0 false more t.opcode = byte0Of more t.opcode := by simp [serialByte0, rawMoreBit]
  obtain ⟨hdr, hhere, hpayload, hconsumed⟩ := frameHere_serialize (serialize_eq_fragFrame henc more t.opcode) hrx
    ((fragFrame_length_le henc more t.opcode).trans hmax)
  rw [hbyte0] at hhere
  have hallowed : HeaderAllowed (byte0Of more t.opcode) t s :=
    ⟨byte0Of_row more t, by simp [hctl], fun ⟨hd, hpend⟩ => by simp [hdata hd] at hpend⟩
  rw [exec_dec_frameHere hfin hf hhere hallowed (by simp [hctl]), hpayload, hconsumed, byte0Of_high]

/-- The first fragment opens the message (R112, R113). -/
theorem exec_dec_fragFirst {t : DataType} (hrx : s.rx = fragFrame true (dataFrameType t).opcode p ++ rest)
    (hpend : s.pend = none) :
    exec .dec s = exec .dec (setFrag (some t) (some p.payload)
      (consume (fragFrame true (dataFrameType t).opcode p).length s)) := by
  have hframe := exec_dec_fragFrame hs hp hrx (isControl_dataFrameType t) fun _ => hpend
  obtain ⟨-, hcap, hf⟩ := hs
  rw [hframe, refReassemble_first (s := consume _ s) hpend, startMessage_fits (s := consume _ s) (by simp [hcap])]
  exact afterFrame_deliver_absorb hf

variable {t : DataType} {a : List Byte} (hpend : s.pend = some t) (hacc : s.acc = some a)
include hpend hacc

/-- A middle fragment extends the message (R111). -/
theorem exec_dec_fragMiddle (hrx : s.rx = fragFrame true 0#4 p ++ rest) :
    exec .dec s =
      exec .dec (setFrag (some t) (some (a ++ p.payload)) (consume (fragFrame true 0#4 p).length s)) := by
  have hframe := exec_dec_fragFrame (t := .continuation) hs hp hrx rfl nofun
  obtain ⟨-, hcap, hf⟩ := hs
  rw [hframe, refReassemble, reasmCont_accumulating (s := consume _ s) hpend hacc,
    appendFragment_more (s := consume _ s) (by simp [hcap])]
  exact afterFrame_deliver_absorb hf

/-- The last fragment ends the message, which is whole now (R111). -/
theorem exec_dec_fragLast (hrx : s.rx = fragFrame false 0#4 p)
    (hv : t = .binary ∨ utf8Valid s.cfg.utf8 (a ++ p.payload) = true) :
    exec .dec s = decMessage (dataFrameType t) (a ++ p.payload) (setFrag none none { s with rx := [] }) := by
  have hframe := exec_dec_fragFrame (t := .continuation) (rest := []) hs hp
    (hrx.trans (List.append_nil _).symm) rfl nofun
  have hempty : consume (fragFrame false FrameType.continuation.opcode p).length s = { s with rx := [] } := by
    simp [consume, hrx, FrameType.opcode]
  obtain ⟨-, hcap, -⟩ := hs
  rw [hframe, hempty, refReassemble_last (s := { s with rx := [] }) hpend hacc (by simp [hcap]) hv,
    afterFrame_deliver_emit]

end

/-! ## The frames after the first -/

/-- DEC absorbs the middle fragments one by one and answers the whole message at the last (R105, R111, R140). -/
theorem exec_dec_fragTail {t : DataType} {mid : List FragPart} {pn : FragPart} {a : List Byte} {s : State}
    (hs : TakesFragments s) (hmid : ∀ p ∈ mid, PartFits s p) (hpn : PartFits s pn)
    (hpend : s.pend = some t) (hacc : s.acc = some a)
    (hrx : s.rx = (mid.map (fragFrame true 0#4)).flatten ++ fragFrame false 0#4 pn)
    (hv : t = .binary ∨
      utf8Valid s.cfg.utf8 (a ++ ((mid ++ [pn]).map FragPart.payload).flatten) = true) :
    exec .dec s = decMessage (dataFrameType t) (a ++ ((mid ++ [pn]).map FragPart.payload).flatten)
      (setFrag none none { s with rx := [] }) := by
  induction mid generalizing a s with
  | nil => simpa using exec_dec_fragLast hs hpn hpend hacc hrx (by simpa using hv)
  | cons p mid ih =>
    obtain ⟨hp, hmid⟩ := List.forall_mem_cons.mp hmid
    rw [List.map_cons, List.flatten_cons, List.append_assoc] at hrx
    obtain ⟨hfin, hcap, hf⟩ := hs
    have htail := ih (a := a ++ p.payload)
      (s := setFrag (some t) (some (a ++ p.payload)) (consume (fragFrame true 0#4 p).length s))
      ⟨hfin, hcap, hf⟩ hmid hpn rfl rfl (by simp [hrx]) (by simpa using hv)
    rw [exec_dec_fragMiddle ⟨hfin, hcap, hf⟩ hp hpend hacc hrx, htail]
    simp [setFrag, consume]

/-- DEC on a whole FRAG at the cursor of an idle decoder: the first frame opens the message, and the frames after it
extend and end it. -/
theorem exec_dec_fragFrames {t : DataType} {p0 : FragPart} {mid : List FragPart} {pn : FragPart} {s : State}
    (hs : TakesFragments s) (hfits : ∀ p ∈ p0 :: (mid ++ [pn]), PartFits s p) (hpend : s.pend = none)
    (hrx : s.rx = fragFrame true (dataFrameType t).opcode p0 ++ (mid.map (fragFrame true 0#4)).flatten
      ++ fragFrame false 0#4 pn)
    (hv : t = .text → utf8Valid s.cfg.utf8 ((p0 :: (mid ++ [pn])).map FragPart.payload).flatten = true) :
    exec .dec s = decMessage (dataFrameType t) ((p0 :: (mid ++ [pn])).map FragPart.payload).flatten
      (setFrag none none { s with rx := [] }) := by
  obtain ⟨hp0, hrest⟩ := List.forall_mem_cons.mp hfits
  obtain ⟨hmid, hpn⟩ := List.forall_mem_append.mp hrest
  have hvalid : t = .binary ∨ utf8Valid s.cfg.utf8 ((p0 :: (mid ++ [pn])).map FragPart.payload).flatten = true := by
    cases t with
    | text => exact .inr (hv rfl)
    | binary => exact .inl rfl
  rw [List.append_assoc] at hrx
  obtain ⟨hfin, hcap, hf⟩ := hs
  have htail := exec_dec_fragTail (t := t) (mid := mid) (pn := pn) (a := p0.payload)
    (s := setFrag (some t) (some p0.payload) (consume (fragFrame true (dataFrameType t).opcode p0).length s))
    ⟨hfin, hcap, hf⟩ hmid (hpn pn (by simp)) rfl rfl (by simp [hrx]) hvalid
  exact (exec_dec_fragFirst ⟨hfin, hcap, hf⟩ hp0 hrx hpend).trans htail

/-- A well-formed FRAG has a first part, some middle parts and a last one (R66). -/
theorem exists_parts_of_two_le {parts : List FragPart} (h : 2 ≤ parts.length) :
    ∃ p0 mid pn, parts = p0 :: (mid ++ [pn]) := by
  match parts with
  | [] | [_] => simp at h
  | p0 :: q :: rest => exact ⟨p0, _, _, by rw [List.dropLast_append_getLast (List.cons_ne_nil q rest)]⟩

end Sys2Proof.Machine

namespace Sys2Proof.Claims

open Sys2Proof.Machine

/-- Settles O50: FRAG pushes its frames whole, and DEC finds all of them at the cursor. -/
theorem fragDecodesToOneMessage : Obligations.FragDecodesToOneMessage := by
  intro t parts s hwf hfin hrxCap hcap hmax hf hpend hacc hrx hv
  obtain ⟨htwo, henc⟩ := (wellFormed_frag_iff t parts).mp hwf
  have hfits : ∀ p ∈ parts, PartFits s p := fun p hp => ⟨henc p hp, hmax p hp⟩
  obtain ⟨p0, mid, pn, rfl⟩ := exists_parts_of_two_le htwo
  have hpush := fragExpandsAndPushes t p0 mid pn s hwf hfin
  rw [pushBytes_fits (by rw [hrxCap, fitsCap_none])] at hpush
  have hdec := exec_dec_fragFrames (s := respond .pushAccepted (appendRx _ s)) ⟨hfin, hcap, hf⟩ hfits hpend
    (by rw [respond_rx, appendRx_rx, hrx, List.nil_append]) hv
  exact ⟨_, _, hpush, hdec, by simp, rfl, rfl, rfl, hf⟩

end Sys2Proof.Claims
end
